-- ==== Sys2Proof/Config.lean ====
section
/-! DEFINITION. The implementation parameters of spec/00_scope.md R5: the numeric literals at the document's
values, and the one parameter the spec leaves OPEN, which has no body here. -/

namespace Sys2Proof

/-- `MEM_SIZE` of R5: the number of addressable words (DESIGN CHOICE of the spec's D2: the source's literal is the
default; log entry 11). -/
def Config.memSize : Nat := 2048

/-- `INPUT_PORT` of R5, `MEM_SIZE - 2`. -/
def Config.inputPort : Nat := Config.memSize - 2

/-- `OUTPUT_PORT` of R5, `MEM_SIZE - 1`. -/
def Config.outputPort : Nat := Config.memSize - 1

/-- `ITERATION_CAP` of R5: the most instruction cycles a run makes (log entries 11 and 27). -/
def Config.iterationCap : Nat := 1000000

/-- `CHAR_MAX` of R5: the largest character code. PRESUMED by the spec itself (D17: general knowledge, not in the
source; log entry 12). -/
def Config.charMax : Nat := 0x10FFFF

/-- `OPERAND_FETCH_ON_NONE` of R5 and spec/41_sequencer.md R131: whether phase 3 reads for a word without an
addressing mode. The spec leaves it OPEN and asks claims to hold for both values, so it has no body: nothing in Lean
can tell which value it has (log entry 10). -/
opaque Config.operandFetchOnNone : Bool

end Sys2Proof
end

