-- ==== Sys2Proof/Word.lean ====
section
/-! DEFINITION. The memory word of spec/30_encoding.md R80: a record of an opcode, an optional unbounded integer and
an optional addressing mode. It has no bit layout (R80, spec/92_eei_decisions.md D3), so there is none here. -/

namespace Sys2Proof

/-- The closed opcode set of spec/30_encoding.md R81: eleven instructions and the data pseudo-opcode VAR. -/
inductive Opcode where
  | add | sub | mul | div | mod | cmp | ld | st | jmp | jz | hlt | var
deriving DecidableEq, Repr

/-- The addressing modes of an operand word, spec/30_encoding.md R82. A word that takes no operand has no mode. -/
inductive Mode where
  | imm   -- IMMEDIATE
  | dir   -- DIRECT
  | ind   -- INDIRECT
deriving DecidableEq, Repr

/-- A memory word `W(op, arg, mode)`, spec/30_encoding.md R80. -/
structure Word where
  op   : Opcode
  arg  : Option Int
  mode : Option Mode
deriving DecidableEq, Repr

/-- `Data(v)`, a data-tagged word, spec/00_scope.md R8. -/
def Word.data (v : Int) : Word := ⟨.var, some v, none⟩

end Sys2Proof
end

