-- ==== Sys2Proof/Syntax.lean ====
section
/-! DEFINITION. The instructions, one constructor for each row of spec/opcode_table.json. -/

namespace Sys2Proof

/-- A well-formed word read as an instruction: format O carries an addressing mode and an integer argument
(spec/30_encoding.md R83), format N an ignored optional argument (R84), format D a data value (R85). -/
inductive Instr where
  | add (mode : Mode) (n : Int)
  | sub (mode : Mode) (n : Int)
  | mul (mode : Mode) (n : Int)
  | div (mode : Mode) (n : Int)
  | mod (mode : Mode) (n : Int)
  | cmp (mode : Mode) (n : Int)
  | ld  (mode : Mode) (n : Int)
  | st  (mode : Mode) (n : Int)
  | jmp (mode : Mode) (n : Int)
  | jz  (mode : Mode) (n : Int)
  | hlt (arg : Option Int)
  | var (v : Int)
deriving DecidableEq, Repr

end Sys2Proof
end

