-- ==== Sys2Proof/WellFormed.lean ====
section
/-! DEFINITION. The well-formedness checks of spec/30_encoding.md R86, on a word and on an image. `opInSet` of R86
holds of every value of the record type, so it needs no check here. -/

namespace Sys2Proof

/-- The named checks of R86 that a word can fail. -/
inductive IllFormed where
  | operandModeGiven   -- an operand opcode without an addressing mode
  | operandArgGiven    -- an operand opcode without an argument
  | noModeOnHlt        -- a HLT word with an addressing mode
  | dataShape          -- a VAR word with a mode, or without a value
deriving DecidableEq, Repr

/-- The ten opcodes that take an operand (format O, R83). -/
def Opcode.takesOperand : Opcode → Bool
  | .add | .sub | .mul | .div | .mod | .cmp | .ld | .st | .jmp | .jz => true
  | .hlt | .var => false

/-- R86 `operandModeGiven`. -/
def Word.operandModeGiven (w : Word) : Bool := !w.op.takesOperand || w.mode.isSome

/-- R86 `operandArgGiven`. -/
def Word.operandArgGiven (w : Word) : Bool := !w.op.takesOperand || w.arg.isSome

/-- R86 `noModeOnHlt`. -/
def Word.noModeOnHlt (w : Word) : Bool := w.op != .hlt || w.mode.isNone

/-- R86 `dataShape`. -/
def Word.dataShape (w : Word) : Bool := w.op != .var || (w.mode.isNone && w.arg.isSome)

/-- A word is well formed when every check of R86 holds of it. -/
def Word.wf (w : Word) : Bool :=
  w.operandModeGiven && w.operandArgGiven && w.noModeOnHlt && w.dataShape

/-- An image is well formed when every word of it is and it leaves the ports free (R86, spec/92_eei_decisions.md D5). -/
def imageWf (image : List Word) : Bool :=
  image.all Word.wf && decide (image.length ≤ Config.inputPort)

end Sys2Proof
end

