-- ==== Sys2Proof/Decode.lean ====
section
/-! DEFINITION. Decoding is reading the three fields of the record (spec/30_encoding.md R80): total on every word,
refusing an ill-formed one by the name of the check it fails. The encoder follows. -/

namespace Sys2Proof

/-- Read a format O word (spec/30_encoding.md R83). -/
def decodeOperand (mk : Mode → Int → Instr) (w : Word) : Except IllFormed Instr :=
  match w.mode, w.arg with
  | none, _ => .error .operandModeGiven
  | some _, none => .error .operandArgGiven
  | some m, some n => .ok (mk m n)

/-- Read a format N word (spec/30_encoding.md R84): any argument, no mode. -/
def decodeHalt (w : Word) : Except IllFormed Instr :=
  match w.mode with
  | none => .ok (.hlt w.arg)
  | some _ => .error .noModeOnHlt

/-- Read a format D word (spec/30_encoding.md R85): a value, no mode. -/
def decodeData (w : Word) : Except IllFormed Instr :=
  match w.mode, w.arg with
  | none, some v => .ok (.var v)
  | none, none => .error .dataShape
  | some _, _ => .error .dataShape

/-- The opcode map of spec/30_encoding.md R88. -/
def decode (w : Word) : Except IllFormed Instr :=
  match w.op with
  | .add => decodeOperand .add w
  | .sub => decodeOperand .sub w
  | .mul => decodeOperand .mul w
  | .div => decodeOperand .div w
  | .mod => decodeOperand .mod w
  | .cmp => decodeOperand .cmp w
  | .ld  => decodeOperand .ld w
  | .st  => decodeOperand .st w
  | .jmp => decodeOperand .jmp w
  | .jz  => decodeOperand .jz w
  | .hlt => decodeHalt w
  | .var => decodeData w

/-- The word of an instruction, from the "encoding" column of spec/opcode_table.json. Every instruction is one word
(spec/30_encoding.md R90). -/
def encode : Instr → Word
  | .add m n => ⟨.add, some n, some m⟩
  | .sub m n => ⟨.sub, some n, some m⟩
  | .mul m n => ⟨.mul, some n, some m⟩
  | .div m n => ⟨.div, some n, some m⟩
  | .mod m n => ⟨.mod, some n, some m⟩
  | .cmp m n => ⟨.cmp, some n, some m⟩
  | .ld m n  => ⟨.ld, some n, some m⟩
  | .st m n  => ⟨.st, some n, some m⟩
  | .jmp m n => ⟨.jmp, some n, some m⟩
  | .jz m n  => ⟨.jz, some n, some m⟩
  | .hlt arg => ⟨.hlt, arg, none⟩
  | .var v   => Word.data v

/-- The host's view of the decoder by BITS. The spec numbers no bits of a word: "there is no encoding of it into bits
for a decoder to recover" (spec/30_encoding.md R80), "no bit layout or numeric opcode values are invented"
(spec/92_eei_decisions.md D3), and no row of spec/opcode_table.json has a fixed bit or a bit field. So no number is an
instruction, and the answer is `none` for every one (DESIGN CHOICE, log entry 7). -/
def decodeTableWord (_nbits _w : Nat) : Option Instr := none

end Sys2Proof
end

