-- ==== Sys2Proof/Machine/State.lean ====
section
/-! DEFINITION. The machine's state, spec/10_state.md R20, and the reasons a step or a run can stop. -/

namespace Sys2Proof.Machine

/-- The six operations of the ALU, spec/40_alu.md R100. -/
inductive AluOp where
  | add | sub | mul | div | mod | cmp
deriving DecidableEq, Repr

/-- The direction of a memory access, recorded by `IllegalPortAccess` (spec/60_exceptions.md R202). -/
inductive Dir where
  | read | write
deriving DecidableEq, Repr

/-- The registers whose read before the first write is a fault, spec/60_exceptions.md R209. -/
inductive UnwrittenReg where
  | acc | zero
deriving DecidableEq, Repr

/-- The fault kinds of spec/60_exceptions.md R202 with the information each records. They are part of STATUS, a field
of the state: a run ended by one is a next state (log entry 1). -/
inductive FaultKind where
  /-- R204: a read of the output port or a write of the input port. -/
  | illegalPortAccess (dir : Dir) (a : Int)
  /-- R205: DIV or MOD with operand 0. -/
  | divideByZero (op : AluOp) (dividend : Int)
  /-- R206: a VAR word executed at `pc`. -/
  | varExecuted (pc : Int) (v : Int)
  /-- R207: an access outside the address space. -/
  | addressOutOfRange (a : Int)
  /-- R208: the argument of a word that has none. -/
  | argumentAbsent (w : Word)
  /-- R208: the argument of an absent MEM_OUT (unreachable in a run, R122). -/
  | memOutAbsent
  /-- R209: ACC or the zero flag read before its first write. -/
  | uninitialisedRead (r : UnwrittenReg)
  /-- R210: an output of a value that is no character code. -/
  | outputUnrepresentable (v : Int)
deriving DecidableEq, Repr

/-- The source's classes of fault, spec/60_exceptions.md R202. -/
inductive FaultClass where
  | userProgram | protocolInvariant | specDecision
deriving DecidableEq, Repr

/-- The terminal conditions of spec/60_exceptions.md R200. -/
inductive Terminal where
  | halted
  | inputExhausted
  | capReached
  | fault (k : FaultKind)
deriving DecidableEq, Repr

/-- STATUS, spec/10_state.md R36. -/
inductive Status where
  | running
  | ended (c : Terminal)
deriving DecidableEq, Repr

/-- The ALU's registers and flags, spec/10_state.md R25 to R29; `none` is "never written" (R38). -/
structure Alu where
  left  : Option Int
  right : Option Int
  out   : Option Int
  zero  : Option Bool
  neg   : Option Bool
deriving DecidableEq, Repr

/-- MEM, spec/10_state.md R20, as the list of the cells that do not hold `Data(0)`, by rising address. A cell is a word
record, not bytes: spec/20_memory.md R62 gives memory no byte view (log entry 8). -/
abbrev Memory := List (Nat × Word)

/-- The complete state of the core, spec/10_state.md R20. An `Option` register is the spec's own type for it: `none`
is the state "holds no value yet" that R38 gives it at the start of a run (log entries 2, 3 and 4). -/
structure State where
  acc    : Option Int
  ar     : Option Int
  pc     : Int
  alu    : Alu
  memOut : Option Word
  cur    : Option Word
  mem    : Memory
  input  : List Nat
  output : List Nat
  ticks  : Nat
  instrs : Nat
  status : Status
  cycles : Nat
deriving DecidableEq, Repr

/-- The datapath latches that spec/10_state.md R39 says are never read before they are written. -/
inductive Latch where
  | ar | aluLeft | aluRight | aluOut
deriving DecidableEq, Repr

/-- The reasons a step stops OUTSIDE the spec's terminal conditions. -/
inductive Fault where
  /-- A signal read a latch that holds no value. spec/10_state.md R39 says no rule does so, and no instruction of this
  model does in any state; it makes the signals total. Raised by the latch reads of Ops.lean and Alu.lean. SAFE: it can
  only stop a run (log entry 4). -/
  | unwrittenLatch (r : Latch)
deriving DecidableEq, Repr

/-- The reasons the model gives something no run. -/
inductive Refusal where
  /-- An instruction without a meaning in this model: raised by no arm of `exec`. SAFE. -/
  | notModelled (mnemonic : String)
  /-- A word that breaks spec/30_encoding.md R86: raised by `State.load` for a word of the image, and by `step` when the
  word fetched is one, which no loaded image makes reachable. SAFE (log entries 14 and 24). -/
  | illFormedWord (check : IllFormed)
  /-- An image longer than the general-purpose range, spec/92_eei_decisions.md D5: raised by `State.load`. SAFE. -/
  | imageTooLong (length : Nat)
deriving DecidableEq, Repr

/-- Why a signal does not complete: the run ends with a terminal condition (`raise` and `stop` of spec/00_scope.md R9),
or a signal is stuck on an unwritten latch. -/
inductive Stop where
  | ends (c : Terminal)
  | stuck (f : Fault)
deriving DecidableEq, Repr

/-- The registers before any of them is written, spec/10_state.md R38. -/
def Alu.reset : Alu := { left := none, right := none, out := none, zero := none, neg := none }

/-- The start of a run, spec/10_state.md R38, before the host has supplied anything: every cell `Data(0)`. The start PC
(0) and the input (empty) are the host's to supply (R38, spec/60_exceptions.md R223); the values here are DESIGN
CHOICES (log entries 5 and 6) that `State.load` replaces. -/
def State.reset : State where
  acc := none
  ar := none
  pc := 0
  alu := Alu.reset
  memOut := none
  cur := none
  mem := []
  input := []
  output := []
  ticks := 0
  instrs := 0
  status := .running
  cycles := 0

end Sys2Proof.Machine
end

