-- ==== Sys2Proof/Machine/Flags.lean ====
section
/-! DEFINITION. The ALU's functions and flags: spec/40_alu.md R103 to R109. All values are unbounded integers
(spec/00_scope.md R6), so nothing wraps, carries or overflows (R112). -/

namespace Sys2Proof.Machine

/-- The zero flag of a result, spec/10_state.md R27. -/
def zeroFlag (result : Int) : Bool := decide (result = 0)

/-- The negative flag of a result, spec/10_state.md R28. -/
def negFlag (result : Int) : Bool := decide (result < 0)

/-- `fdiv(r, l) = floor(r / l)`, spec/40_alu.md R107 (Lean's floor division; `l = 0` never reaches it, R110). -/
def fdiv (r l : Int) : Int := Int.fdiv r l

/-- `fmod(r, l) = r - l * floor(r / l)`, spec/40_alu.md R108. -/
def fmod (r l : Int) : Int := r - l * fdiv r l

/-- `f_op(r, l)` of spec/40_alu.md R103: the right operand comes first. -/
def aluResult (op : AluOp) (r l : Int) : Int :=
  match op with
  | .add => r + l         -- R104
  | .sub => r - l         -- R105
  | .mul => r * l         -- R106
  | .div => fdiv r l      -- R107
  | .mod => fmod r l      -- R108
  | .cmp => r - l         -- R109

/-- The operations that fail on a zero left operand, spec/40_alu.md R110. -/
def AluOp.divides : AluOp → Bool
  | .div | .mod => true
  | .add | .sub | .mul | .cmp => false

/-- The registers after `compute(op)` with this result, spec/40_alu.md R103: CMP leaves `out` alone, every operation
writes both flags. -/
def Alu.commit (alu : Alu) (op : AluOp) (result : Int) : Alu :=
  { alu with
    out  := if op = .cmp then alu.out else some result
    zero := some (zeroFlag result)
    neg  := some (negFlag result) }

end Sys2Proof.Machine
end

