-- ==== Sys2Proof/Machine/Ops.lean ====
section
/-! DEFINITION. The named operations over memory, ports and registers: the cells (spec/20_memory.md R50 to R60), the
datapath's signals (spec/41_sequencer.md R120 to R123), ending a run (spec/60_exceptions.md R200, R201) and the host's
load (spec/70_reset_and_hazards.md R231). -/

namespace Sys2Proof.Machine

/-! ### Cells -/

/-- The word at a cell. An unlisted cell holds `Data(0)`: "remaining cells defaulted to data value 0"
(spec/10_state.md R38). -/
def Memory.read : Memory → Nat → Word
  | [], _ => Word.data 0
  | (b, w) :: rest, a => if b = a then w else Memory.read rest a

/-- Drop a cell from the list, so that it holds `Data(0)`. -/
def Memory.clear (m : Memory) (a : Nat) : Memory := m.filter fun c => decide (c.1 ≠ a)

/-- List a cell at its place in the rising order. -/
def Memory.insert : Memory → Nat → Word → Memory
  | [], a, w => [(a, w)]
  | (b, v) :: rest, a, w =>
    if a < b then (a, w) :: (b, v) :: rest
    else if a = b then (a, w) :: rest
    else (b, v) :: Memory.insert rest a w

/-- Replace a cell whole (spec/20_memory.md R60), keeping the canonical form: writing `Data(0)` removes the entry. -/
def Memory.write (m : Memory) (a : Nat) (w : Word) : Memory :=
  if w = Word.data 0 then m.clear a else m.insert a w

/-- Addresses rise strictly from `lo`, stay below the ports, and no entry is the default word. -/
def Memory.wfFrom : Nat → Memory → Bool
  | _, [] => true
  | lo, (a, w) :: rest =>
    decide (lo ≤ a) && decide (a < Config.inputPort) && decide (w ≠ Word.data 0) && Memory.wfFrom (a + 1) rest

/-- The canonical form of memory. The two port cells hold `Data(0)` throughout (spec/92_eei_decisions.md D25), so they
are never listed. -/
def Memory.wf (m : Memory) : Bool := Memory.wfFrom 0 m

/-- Place the words of an image at consecutive cells, spec/70_reset_and_hazards.md R231. -/
def Memory.placeFrom : Nat → List Word → Memory
  | _, [] => []
  | a, w :: rest =>
    if w = Word.data 0 then Memory.placeFrom (a + 1) rest else (a, w) :: Memory.placeFrom (a + 1) rest

/-! ### Signals and the end of a run -/

/-- A signal of spec/00_scope.md R9: it reads and writes the state, and may end the run. A signal that does not complete
keeps the state the signals before it left: spec/60_exceptions.md R212, "no signal is undone". -/
abbrev Signal (α : Type) := EStateM Stop State α

/-- `stop S` of spec/00_scope.md R9. -/
def stop {α : Type} (c : Terminal) : Signal α := throw (.ends c)

/-- `raise F(info)` of spec/00_scope.md R9 and spec/60_exceptions.md R201. -/
def raise {α : Type} (k : FaultKind) : Signal α := stop (.fault k)

/-- A read of a latch that holds no value: spec/10_state.md R39 says no rule does so. -/
def stuckOn {α : Type} (r : Latch) : Signal α := throw (.stuck (.unwrittenLatch r))

/-- The number of a fault kind in the table of spec/60_exceptions.md R202: a label, no behaviour depends on it (D21). -/
def FaultKind.number : FaultKind → Nat
  | .illegalPortAccess _ _ => 1
  | .divideByZero _ _ => 2
  | .varExecuted _ _ => 3
  | .addressOutOfRange _ => 4
  | .argumentAbsent _ => 5
  | .memOutAbsent => 6
  | .uninitialisedRead _ => 7
  | .outputUnrepresentable _ => 8

/-- The class of a fault kind in the table of spec/60_exceptions.md R202. -/
def FaultKind.faultClass : FaultKind → FaultClass
  | .illegalPortAccess _ _ | .divideByZero _ _ | .varExecuted _ _ => .userProgram
  | .addressOutOfRange _ | .argumentAbsent _ | .memOutAbsent => .protocolInvariant
  | .uninitialisedRead _ | .outputUnrepresentable _ => .specDecision

/-- TAKING A TERMINAL CONDITION, the one shared operation: STATUS takes the condition and everything else stays
(spec/60_exceptions.md R201, R212). Nothing is saved and there is no return from it (R215). -/
def State.endRun (s : State) (c : Terminal) : State := { s with status := .ended c }

/-- The outcome of a whole sequence of signals: a terminal condition is a next state with STATUS set (log entry 1). -/
def finish {α : Type} (r : EStateM.Result Stop State α) : Host.Outcome State Fault Refusal :=
  match r with
  | .ok _ s => .next s
  | .error (.ends c) s => .next (s.endRun c)
  | .error (.stuck f) _ => .fault f

/-- `tick()`, spec/41_sequencer.md R123. -/
def tick : Signal Unit := modify fun s => { s with ticks := s.ticks + 1 }

/-- The instruction counter at the end of a completed execute step, spec/41_sequencer.md R134. -/
def retire : Signal Unit := modify fun s => { s with instrs := s.instrs + 1 }

/-! ### Reading registers -/

/-- AR as `MemRead` and `MemWrite` read it, spec/10_state.md R23, R39. -/
def readAR : Signal Int := do
  match (← get).ar with
  | some a => pure a
  | none => stuckOn .ar

/-- ALU.out as its readers read it, spec/10_state.md R26, R39. -/
def readAluOut : Signal Int := do
  match (← get).alu.out with
  | some v => pure v
  | none => stuckOn .aluOut

/-- `readACC()`, spec/42_arithmetic.md R149: an accumulator never written ends the run. -/
def readACC : Signal Int := do
  match (← get).acc with
  | some a => pure a
  | none => raise (.uninitialisedRead .acc)

/-- `argOf(w)`, spec/41_sequencer.md R122. -/
def argOf (w : Option Word) : Signal Int :=
  match w with
  | none => raise .memOutAbsent
  | some w =>
    match w.arg with
    | none => raise (.argumentAbsent w)
    | some n => pure n

/-- `argOf(MEM_OUT)`, the form every rule uses it in. -/
def memOutArg : Signal Int := do argOf (← get).memOut

/-! ### Memory access at AR -/

/-- `MemRead()`, spec/20_memory.md R53. -/
def memRead : Signal Unit := do
  let a ← readAR
  let s ← get
  if a = Config.inputPort then
    match s.input with
    | [] => stop .inputExhausted                                            -- R55
    | c :: rest => set { s with input := rest, memOut := some (Word.data c) } -- R54
  else if a = Config.outputPort then
    raise (.illegalPortAccess .read a)                                      -- R56
  else if 0 ≤ a ∧ a < Config.inputPort then
    set { s with memOut := some (s.mem.read a.toNat) }
  else
    raise (.addressOutOfRange a)                                            -- R52

/-- `MemWrite()`, spec/20_memory.md R57. -/
def memWrite : Signal Unit := do
  let a ← readAR
  let v ← readAluOut
  let s ← get
  if a = Config.outputPort then
    if 0 ≤ v ∧ v ≤ Config.charMax then set { s with output := s.output ++ [v.toNat] } -- R58
    else raise (.outputUnrepresentable v)
  else if a = Config.inputPort then
    raise (.illegalPortAccess .write a)                                     -- R59
  else if 0 ≤ a ∧ a < Config.inputPort then
    set { s with mem := s.mem.write a.toNat (Word.data v) }                 -- R60
  else
    raise (.addressOutOfRange a)                                            -- R52

/-! ### Latches -/

/-- The three sources a latch signal selects from, spec/41_sequencer.md R120. -/
inductive LatchSource where
  | alu | pc | mem
deriving DecidableEq, Repr

/-- The value of a latch source, spec/41_sequencer.md R120 and R121. -/
def latchValue (src : LatchSource) : Signal Int := do
  match src with
  | .alu => readAluOut
  | .pc => pure (← get).pc
  | .mem => memOutArg

/-- `latch_address_register(src)`, spec/41_sequencer.md R120. No opcode drives the ALU source (log entry 23). -/
def latchAddressRegister (src : LatchSource) : Signal Unit := do
  let v ← latchValue src
  modify fun s => { s with ar := some v }

/-- `latch_accumulator(src)`, spec/41_sequencer.md R121. No opcode drives the PC source (log entry 23). -/
def latchAccumulator (src : LatchSource) : Signal Unit := do
  let v ← latchValue src
  modify fun s => { s with acc := some v }

/-- `PC <- PC + 1`, exact (spec/10_state.md R24). -/
def advancePC : Signal Unit := modify fun s => { s with pc := s.pc + 1 }

/-- `PC <- argOf(MEM_OUT)`, the target not checked (spec/44_control.md R180). -/
def jumpToArg : Signal Unit := do
  let v ← memOutArg
  modify fun s => { s with pc := v }

/-! ### The host's load -/

/-- The first word of an image that breaks spec/30_encoding.md R86, by the check it fails. -/
def firstIllFormed : List Word → Option IllFormed
  | [] => none
  | w :: rest =>
    match decode w with
    | .error e => some e
    | .ok _ => firstIllFormed rest

/-- The host's load, spec/60_exceptions.md R223 and spec/70_reset_and_hazards.md R231 to R233: word `i` of the image at
cell `i`, any start PC, the whole input; an ill-formed or too long image is given no run (spec/30_encoding.md R86). -/
def State.load (image : List Word) (startPC : Int) (input : List Nat) : Host.Outcome State Fault Refusal :=
  if Config.inputPort < image.length then .refused (.imageTooLong image.length)
  else
    match firstIllFormed image with
    | some e => .refused (.illFormedWord e)
    | none => .next { State.reset with mem := Memory.placeFrom 0 image, pc := startPC, input := input }

end Sys2Proof.Machine
end

