-- ==== Sys2Proof/Machine/Alu.lean ====
section
/-! DEFINITION. The three signals that drive the ALU, spec/40_alu.md R100 to R103. -/

namespace Sys2Proof.Machine

/-- `select_left(v, en)`, spec/40_alu.md R101. -/
def selectLeft (v : Int) (en : Bool) : Signal Unit :=
  modify fun s => { s with alu := { s.alu with left := some (if en then v else 0) } }

/-- `select_right(v, en)`, spec/40_alu.md R102. -/
def selectRight (v : Int) (en : Bool) : Signal Unit :=
  modify fun s => { s with alu := { s.alu with right := some (if en then v else 0) } }

/-- ALU.left as `compute` reads it, spec/10_state.md R25, R39. -/
def readAluLeft : Signal Int := do
  match (← get).alu.left with
  | some v => pure v
  | none => stuckOn .aluLeft

/-- ALU.right as `compute` reads it, spec/10_state.md R25, R39. -/
def readAluRight : Signal Int := do
  match (← get).alu.right with
  | some v => pure v
  | none => stuckOn .aluRight

/-- `compute(op)`, spec/40_alu.md R103: the divide-by-zero check comes before any write (R110). -/
def compute (op : AluOp) : Signal Unit := do
  let r ← readAluRight
  let l ← readAluLeft
  if op.divides && l == 0 then raise (.divideByZero op r)
  else modify fun s => { s with alu := s.alu.commit op (aluResult op r l) }

end Sys2Proof.Machine
end

