-- ==== Sys2Proof/Machine/Operands.lean ====
section
/-! DEFINITION. Phases 1 to 3 of the instruction cycle (spec/41_sequencer.md R125 to R131): the fetch, and every operand
form. -/

namespace Sys2Proof.Machine

/-- Phase 1, program fetch, spec/41_sequencer.md R125; the answer is the current instruction's word. -/
def fetch : Signal Word := do
  latchAddressRegister .pc
  memRead
  let s ← get
  match s.memOut with
  | none => raise .memOutAbsent
  | some w =>
    set { s with cur := some w }
    tick
    pure w

/-- The latches as phase 1 leaves them for the instruction word `w` fetched at PC: AR holds PC, MEM_OUT and CUR hold the
word. The meanings start here, so that they are defined from every state; after a fetch it changes nothing (DESIGN
CHOICE, log entry 13). -/
def present (w : Word) : Signal Unit :=
  modify fun s => { s with ar := some s.pc, memOut := some w, cur := some w }

/-- Phase 2, address resolution, spec/41_sequencer.md R126 to R128. -/
def resolve (m : Mode) : Signal Unit :=
  match m with
  | .imm => pure ()
  | .dir => latchAddressRegister .mem
  | .ind => do
    latchAddressRegister .mem
    memRead
    tick
    latchAddressRegister .mem

/-- Phase 3, operand fetch, spec/41_sequencer.md R130. -/
def operandFetch (m : Mode) : Signal Unit :=
  match m with
  | .imm => pure ()
  | .dir | .ind => do
    memRead
    tick

/-- Phase 3 for addressing none, spec/41_sequencer.md R131, under either value of OPERAND_FETCH_ON_NONE. -/
def operandFetchNone (onNone : Bool) : Signal Unit :=
  if onNone then do
    memRead
    tick
  else pure ()

/-- Phases 2 and 3 of an operand instruction. -/
def operandPhases (i : Instr) (m : Mode) : Signal Unit := do
  present (encode i)
  resolve m
  operandFetch m

/-- Phases 2 and 3 of a word without an addressing mode (spec/41_sequencer.md R129, R131). -/
def nonePhases (i : Instr) : Signal Unit := do
  present (encode i)
  operandFetchNone Config.operandFetchOnNone

/-- Phases 2 to 4 of an operand instruction whose execute step is `body`, and the instruction count of R134. -/
def runOperand (i : Instr) (m : Mode) (body : Signal Unit) (s : State) : Host.Outcome State Fault Refusal :=
  finish ((do operandPhases i m; body; retire : Signal Unit).run s)

/-- Phases 2 to 4 of a word without an addressing mode, whose execute step `body` ends the run. -/
def runNone (i : Instr) (body : Signal Unit) (s : State) : Host.Outcome State Fault Refusal :=
  finish ((do nonePhases i; body : Signal Unit).run s)

/-- The address an ST writes: the operand value at the start of phase 4 (spec/41_sequencer.md R136). `none` where the
run ends before it is known. -/
def storeAddress (m : Mode) (n : Int) (s : State) : Option Int :=
  match (do operandPhases (.st m n) m; memOutArg : Signal Int).run s with
  | .ok v _ => some v
  | .error _ _ => none

end Sys2Proof.Machine
end

