-- ==== Sys2Proof/Machine/Arithmetic.lean ====
section
/-! DEFINITION. The arithmetic and compare instructions, spec/42_arithmetic.md R150 to R155. -/

namespace Sys2Proof.Machine

/-- The operand selection shared by R150 to R155: the operand value on the left, the accumulator on the right. -/
def selectOperands : Signal Unit := do
  selectLeft (← memOutArg) true
  selectRight (← readACC) true

/-- The execute step of R150 to R154. -/
def accumulate (op : AluOp) : Signal Unit := do
  selectOperands
  compute op
  latchAccumulator .alu
  advancePC
  tick

/-- The execute step of R155: no accumulator latch. -/
def compareAcc : Signal Unit := do
  selectOperands
  compute .cmp
  advancePC
  tick

/-- ADD, R150. -/
def execAdd (m : Mode) (n : Int) (s : State) : Host.Outcome State Fault Refusal :=
  runOperand (.add m n) m (accumulate .add) s

/-- SUB, R151. -/
def execSub (m : Mode) (n : Int) (s : State) : Host.Outcome State Fault Refusal :=
  runOperand (.sub m n) m (accumulate .sub) s

/-- MUL, R152. -/
def execMul (m : Mode) (n : Int) (s : State) : Host.Outcome State Fault Refusal :=
  runOperand (.mul m n) m (accumulate .mul) s

/-- DIV, R153. -/
def execDiv (m : Mode) (n : Int) (s : State) : Host.Outcome State Fault Refusal :=
  runOperand (.div m n) m (accumulate .div) s

/-- MOD, R154. -/
def execMod (m : Mode) (n : Int) (s : State) : Host.Outcome State Fault Refusal :=
  runOperand (.mod m n) m (accumulate .mod) s

/-- CMP, R155. -/
def execCmp (m : Mode) (n : Int) (s : State) : Host.Outcome State Fault Refusal :=
  runOperand (.cmp m n) m compareAcc s

end Sys2Proof.Machine
end

