-- ==== Sys2Proof/Machine/Control.lean ====
section
/-! DEFINITION. Control transfer, halt and data words, spec/44_control.md R180 to R183. -/

namespace Sys2Proof.Machine

/-- The execute step of JMP, R180. -/
def jump : Signal Unit := do
  jumpToArg
  tick

/-- The execute step of JZ, R181: the argument is read only when the jump is taken (log entry 19). -/
def branchZero : Signal Unit := do
  match (← get).alu.zero with
  | none => raise (.uninitialisedRead .zero)
  | some true => do jumpToArg; tick
  | some false => do advancePC; tick

/-- The execute step of VAR, R183: a data cell was jumped into. -/
def dataExecuted (v : Int) : Signal Unit := do
  raise (.varExecuted (← get).pc v)

/-- JMP, R180. -/
def execJmp (m : Mode) (n : Int) (s : State) : Host.Outcome State Fault Refusal :=
  runOperand (.jmp m n) m jump s

/-- JZ, R181. -/
def execJz (m : Mode) (n : Int) (s : State) : Host.Outcome State Fault Refusal :=
  runOperand (.jz m n) m branchZero s

/-- HLT, R182: the run ends HALTED; PC keeps the HLT's address, no execute tick, no instruction count. -/
def execHlt (arg : Option Int) (s : State) : Host.Outcome State Fault Refusal :=
  runNone (.hlt arg) (stop .halted) s

/-- VAR reached as an instruction, R183. -/
def execVar (v : Int) (s : State) : Host.Outcome State Fault Refusal :=
  runNone (.var v) (dataExecuted v) s

end Sys2Proof.Machine
end

