-- ==== Sys2Proof/Machine/LoadStore.lean ====
section
/-! DEFINITION. The load and store instructions, spec/43_load_store.md R170 to R172. -/

namespace Sys2Proof.Machine

/-- The execute step of LD, R170. -/
def loadAcc : Signal Unit := do
  latchAccumulator .mem
  advancePC
  tick

/-- The execute step of ST, R171: the operand value is the address (one level deeper than LD's, R172), and the
accumulator passes through the ALU, which writes ALU.out and the flags (spec/40_alu.md R111). -/
def storeAcc : Signal Unit := do
  latchAddressRegister .mem
  selectLeft (← memOutArg) false
  selectRight (← readACC) true
  compute .add
  memWrite
  advancePC
  tick

/-- LD, R170. -/
def execLd (m : Mode) (n : Int) (s : State) : Host.Outcome State Fault Refusal :=
  runOperand (.ld m n) m loadAcc s

/-- ST, R171. -/
def execSt (m : Mode) (n : Int) (s : State) : Host.Outcome State Fault Refusal :=
  runOperand (.st m n) m storeAcc s

end Sys2Proof.Machine
end

