-- ==== Sys2Proof/Machine/Dispatch.lean ====
section
/-! DEFINITION. Phase 4's dispatch over the closed opcode set, spec/41_sequencer.md R132. -/

namespace Sys2Proof.Machine

/-- Phases 2 to 4 of the instruction cycle of `i` from a state `s` whose phase 1 fetched it. -/
def exec (i : Instr) (s : State) : Host.Outcome State Fault Refusal :=
  match i with
  | .add m n => Sys2Proof.Machine.execAdd m n s
  | .sub m n => Sys2Proof.Machine.execSub m n s
  | .mul m n => Sys2Proof.Machine.execMul m n s
  | .div m n => Sys2Proof.Machine.execDiv m n s
  | .mod m n => Sys2Proof.Machine.execMod m n s
  | .cmp m n => Sys2Proof.Machine.execCmp m n s
  | .ld m n => Sys2Proof.Machine.execLd m n s
  | .st m n => Sys2Proof.Machine.execSt m n s
  | .jmp m n => Sys2Proof.Machine.execJmp m n s
  | .jz m n => Sys2Proof.Machine.execJz m n s
  | .hlt arg => Sys2Proof.Machine.execHlt arg s
  | .var v => Sys2Proof.Machine.execVar v s

end Sys2Proof.Machine
end

