-- ==== Sys2Proof/Machine/Step.lean ====
section
/-! DEFINITION. One step: one iteration of the driver's loop (spec/60_exceptions.md R222), which runs one whole
instruction cycle (spec/41_sequencer.md R135). -/

namespace Sys2Proof.Machine

/-- The instruction cycle, spec/41_sequencer.md R135: fetch, read the current instruction, execute it. A word that breaks
spec/30_encoding.md R86 is refused (log entry 14). -/
def instructionCycle (s : State) : Host.Outcome State Fault Refusal :=
  match fetch.run s with
  | .error e t => finish (.error e t : EStateM.Result Stop State Unit)
  | .ok w t =>
    match decode w with
    | .ok i => exec i t
    | .error e => .refused (.illFormedWord e)

/-- One iteration of the driver's loop, spec/60_exceptions.md R222: the cap is checked before the cycle, and CYCLES
counts the cycles begun. A terminated state is absorbing (R224): it steps to itself (log entry 1). -/
def step (s : State) : Host.Outcome State Fault Refusal :=
  match s.status with
  | .ended _ => .next s
  | .running =>
    if s.cycles = Config.iterationCap then .next (s.endRun .capReached)
    else instructionCycle { s with cycles := s.cycles + 1 }

/-- The state with the word of `i` in the cell the next fetch reads. Where PC is outside the general-purpose range no
cell is fetched from (spec/41_sequencer.md R125), and nothing can be placed. -/
def State.withFetchInstr (s : State) (i : Instr) : State :=
  if 0 ≤ s.pc ∧ s.pc < Config.inputPort then { s with mem := s.mem.write s.pc.toNat (encode i) } else s

/-- `withFetchInstr` by the host's bit numbering. No number is an instruction of this hardware (`decodeTableWord`), so
there is nothing to place (log entry 7). -/
def State.withFetchWord (s : State) (nbits w : Nat) : State :=
  match decodeTableWord nbits w with
  | some i => s.withFetchInstr i
  | none => s

end Sys2Proof.Machine
end

