-- ==== Sys2Proof/Safety.lean ====
section
/-! DEFINITION. The terms claims are stated in: what a read delivers and what an operand is, said directly from the
spec's net-effect rules and not through the signals; what the run shows; and the invariant of the machine. -/

namespace Sys2Proof.Machine

/-! ### What a read delivers -/

/-- The word a read at `a` delivers and the input left after it, spec/20_memory.md R51 and R53; `none` where the read
ends the run. -/
def delivered (a : Int) (mem : Memory) (input : List Nat) : Option (Word × List Nat) :=
  if a = Config.inputPort then
    match input with
    | [] => none
    | c :: rest => some (Word.data c, rest)
  else if 0 ≤ a ∧ a < Config.inputPort then some (mem.read a.toNat, input)
  else none

/-- The terminal condition a read at `a` ends the run with, spec/20_memory.md R52, R55, R56; `none` where it delivers. -/
def readEnd (a : Int) (input : List Nat) : Option Terminal :=
  if a = Config.inputPort then (if input = [] then some .inputExhausted else none)
  else if a = Config.outputPort then some (.fault (.illegalPortAccess .read a))
  else if 0 ≤ a ∧ a < Config.inputPort then none
  else some (.fault (.addressOutOfRange a))

/-- The terminal condition a write of `v` at `a` ends the run with, spec/20_memory.md R52, R58, R59; `none` where it
completes. -/
def writeEnd (a v : Int) : Option Terminal :=
  if a = Config.outputPort then
    (if 0 ≤ v ∧ v ≤ Config.charMax then none else some (.fault (.outputUnrepresentable v)))
  else if a = Config.inputPort then some (.fault (.illegalPortAccess .write a))
  else if 0 ≤ a ∧ a < Config.inputPort then none
  else some (.fault (.addressOutOfRange a))

/-! ### Operands -/

/-- What phases 2 and 3 leave for phase 4: AR, the word in MEM_OUT (its argument is the operand value), and the input
left. -/
structure OperandRead where
  ar    : Int
  word  : Word
  input : List Nat
deriving DecidableEq, Repr

/-- The operand of a word `w` with mode `m` and argument `n`, spec/41_sequencer.md R136: IMM reads nothing, DIR reads at
`n`, IND reads at `n` and then at the argument of the word read there. `none` where a read or the first argument ends the
run. -/
def operandRead (w : Word) (m : Mode) (n : Int) (s : State) : Option OperandRead :=
  match m with
  | .imm => some ⟨s.pc, w, s.input⟩
  | .dir => (delivered n s.mem s.input).map fun x => ⟨n, x.1, x.2⟩
  | .ind =>
    (delivered n s.mem s.input).bind fun p =>
      p.1.arg.bind fun q => (delivered q s.mem p.2).map fun x => ⟨q, x.1, x.2⟩

/-- The ticks of phases 2 and 3, spec/70_reset_and_hazards.md R242. -/
def phaseTicks : Mode → Nat
  | .imm => 0
  | .dir => 1
  | .ind => 2

/-- The state after phases 2 and 3 of `i` with mode `m`, where `o` is its operand. -/
def afterPhases (i : Instr) (m : Mode) (o : OperandRead) (s : State) : State :=
  { s with
    ar := some o.ar
    memOut := some o.word
    cur := some (encode i)
    input := o.input
    ticks := s.ticks + phaseTicks m }

/-- The state after phases 2 and 3 of a word without an addressing mode at a general-purpose PC, for either value of
OPERAND_FETCH_ON_NONE (spec/41_sequencer.md R131). -/
def afterNone (i : Instr) (s : State) : State :=
  { s with
    ar := some s.pc
    memOut := some (if Config.operandFetchOnNone then s.mem.read s.pc.toNat else encode i)
    cur := some (encode i)
    ticks := s.ticks + (if Config.operandFetchOnNone then 1 else 0) }

/-- The end of a completed execute step: one tick (spec/41_sequencer.md R123, R124) and one instruction (R134). -/
def State.completed (s : State) : State := { s with ticks := s.ticks + 1, instrs := s.instrs + 1 }

/-- The ALU after both operands were selected and a result other than CMP's was computed. -/
def Alu.computed (left right result : Int) : Alu :=
  ⟨some left, some right, some result, some (decide (result = 0)), some (decide (result < 0))⟩

/-! ### What a run shows -/

/-- The observation of a finished run, spec/60_exceptions.md R213. Reading it changes nothing (spec/10_state.md R37). -/
def State.observe (s : State) : Status × List Nat × Memory × Option Int × Option Int × Int × Alu × Nat × Nat :=
  (s.status, s.output, s.mem, s.acc, s.ar, s.pc, s.alu, s.ticks, s.instrs)

/-- The part of the state that decides what a program does from the start of a cycle on: everything but the counters
TICKS and INSTRS (spec/10_state.md R35), the negative flag (R28), and the latches each cycle writes before it reads
them (R30, R31, R39). -/
structure ProgramView where
  acc    : Option Int
  pc     : Int
  zero   : Option Bool
  mem    : Memory
  input  : List Nat
  output : List Nat
  status : Status
  cycles : Nat
deriving DecidableEq, Repr

/-- The program's view of a state. -/
def State.view (s : State) : ProgramView :=
  ⟨s.acc, s.pc, s.alu.zero, s.mem, s.input, s.output, s.status, s.cycles⟩

/-- The program's view of an outcome, keeping which of the three it is. -/
def viewOutcome : Host.Outcome State Fault Refusal → Host.Outcome ProgramView Fault Refusal
  | .next s => .next s.view
  | .fault f => .fault f
  | .refused r => .refused r

/-! ### The invariant -/

/-- What the counters say of each status: an ended cycle was begun and not counted (spec/41_sequencer.md R134), the cap
ends a run before a cycle begins (spec/60_exceptions.md R222). -/
def State.countersAgree (s : State) : Prop :=
  match s.status with
  | .running => s.cycles = s.instrs
  | .ended .capReached => s.cycles = s.instrs ∧ s.cycles = Config.iterationCap
  | .ended _ => s.cycles = s.instrs + 1

/-- The invariant of the machine between steps. -/
structure State.Inv (s : State) : Prop where
  /-- Memory is in its canonical form, with nothing at or above the ports. -/
  memCanonical : s.mem.wf = true
  /-- Every word held is well formed: "every reachable memory is well formed" (spec/30_encoding.md R86). -/
  wordsWellFormed : ∀ c ∈ s.mem, c.2.wf = true
  memOutWellFormed : ∀ w, s.memOut = some w → w.wf = true
  curWellFormed : ∀ w, s.cur = some w → w.wf = true
  /-- At most ITERATION_CAP cycles are begun (spec/60_exceptions.md R222). -/
  withinCap : s.cycles ≤ Config.iterationCap
  counters : s.countersAgree
  /-- Only character codes are written out (spec/20_memory.md R58). -/
  outputCodes : ∀ c ∈ s.output, c ≤ Config.charMax
  /-- Every `compute` writes both flags (spec/10_state.md R27, R28). -/
  flagsTogether : s.alu.zero.isSome = s.alu.neg.isSome
  /-- Whatever writes ALU.out writes the flags (spec/40_alu.md R103). -/
  outHasFlags : s.alu.out.isSome = true → s.alu.zero.isSome = true

end Sys2Proof.Machine
end

