-- ==== Sys2Proof/Certificates/Slice0/Obligations.lean ====
section
/-! DEFINITION. The statements for the provers, each said from the spec's rules; OBLIGATIONS.json lists them with the
rules they formalise. The terms they use (what a read delivers, the operand of an addressing mode, the state after phases
2 and 3, the invariant) are defined in Safety.lean. -/

open Sys2Proof Sys2Proof.Machine

namespace Sys2Proof.Statements

/-- The exact integer function of each ALU operation, spec/40_alu.md R104 to R109, with the right operand first and
floor taken over the rationals. -/
def exactResult (op : AluOp) (r l : Int) : Int :=
  match op with
  | .add => r + l
  | .sub => r - l
  | .mul => r * l
  | .div => ⌊(r : ℚ) / (l : ℚ)⌋
  | .mod => r - l * ⌊(r : ℚ) / (l : ℚ)⌋
  | .cmp => r - l

/-- The record checks of spec/30_encoding.md R86, spelled out. -/
def checksHold (w : Word) : Prop :=
  (w.op ∈ [Opcode.add, .sub, .mul, .div, .mod, .cmp, .ld, .st, .jmp, .jz] → w.mode ≠ none ∧ w.arg ≠ none) ∧
  (w.op = .hlt → w.mode = none) ∧
  (w.op = .var → w.mode = none ∧ w.arg ≠ none)

/-- The general-purpose addresses, spec/20_memory.md R51. -/
def generalPurpose (a : Int) : Prop := 0 ≤ a ∧ a < Config.inputPort

/-- An accumulator instruction whose operand word has no argument, or whose accumulator was never written, ends the run
there, in that order (spec/41_sequencer.md R122, spec/42_arithmetic.md R149, spec/60_exceptions.md R211). -/
def operandThenAccFaults (mk : Mode → Int → Instr) : Prop :=
  ∀ m n s o, operandRead (encode (mk m n)) m n s = some o →
    (o.word.arg = none →
      exec (mk m n) s = .next ((afterPhases (mk m n) m o s).endRun (.fault (.argumentAbsent o.word)))) ∧
    (∀ v, o.word.arg = some v → s.acc = none →
      exec (mk m n) s =
        .next (State.endRun { afterPhases (mk m n) m o s with alu := { s.alu with left := some v } }
          (.fault (.uninitialisedRead .acc))))

/-- An instruction that replaces the accumulator by `f ACC v` and writes ALU.left, right, out and both flags, whenever
the operand value `v` satisfies `ok`. -/
def accumulatesBy (mk : Mode → Int → Instr) (f : Int → Int → Int) (ok : Int → Prop) : Prop :=
  ∀ m n s o v a, operandRead (encode (mk m n)) m n s = some o → o.word.arg = some v → s.acc = some a → ok v →
    exec (mk m n) s =
      .next (State.completed { afterPhases (mk m n) m o s with
        acc := some (f a v)
        alu := Alu.computed v a (f a v)
        pc := s.pc + 1 })

/-- DIV or MOD by zero: ACC, PC, ALU.out and the flags keep their values, the selected operands stay (R110, R212). -/
def faultsOnZero (mk : Mode → Int → Instr) (op : AluOp) : Prop :=
  ∀ m n s o a, operandRead (encode (mk m n)) m n s = some o → o.word.arg = some 0 → s.acc = some a →
    exec (mk m n) s =
      .next (State.endRun { afterPhases (mk m n) m o s with alu := { s.alu with left := some 0, right := some a } }
        (.fault (.divideByZero op a)))

/-- Where a read of phase 2 or 3 fails, the run ends there: the signals before it keep their effect and none runs after
it (spec/60_exceptions.md R203, R204, R207, R208, R211, R212). -/
def readsFailFirst (i : Instr) (m : Mode) (n : Int) (s : State) : Prop :=
  (∀ c, m ≠ .imm → readEnd n s.input = some c →
    exec i s = .next (State.endRun { s with ar := some n, memOut := some (encode i), cur := some (encode i) } c)) ∧
  (∀ w rest, m = .ind → delivered n s.mem s.input = some (w, rest) → w.arg = none →
    exec i s = .next (State.endRun
      { s with ar := some n, memOut := some w, cur := some (encode i), input := rest, ticks := s.ticks + 1 }
      (.fault (.argumentAbsent w)))) ∧
  (∀ w rest q c, m = .ind → delivered n s.mem s.input = some (w, rest) → w.arg = some q → readEnd q rest = some c →
    exec i s = .next (State.endRun
      { s with ar := some q, memOut := some w, cur := some (encode i), input := rest, ticks := s.ticks + 1 } c))

/-- The ten operand instructions with their mode and argument; HLT and VAR have none (spec/30_encoding.md R83). -/
def operandOf : Instr → Option (Mode × Int)
  | .add m n | .sub m n | .mul m n | .div m n | .mod m n | .cmp m n | .ld m n | .st m n | .jmp m n | .jz m n => some (m, n)
  | .hlt _ | .var _ => none

/-- Memory reads the same at every address. -/
def sameCells (s t : State) : Prop := ∀ a : Nat, t.mem.read a = s.mem.read a

/-- What no instruction but its own rule's writes changes outside the latches, the counters, STATUS and PC. -/
def sameStreams (s t : State) : Prop := t.output = s.output ∧ t.cycles = s.cycles ∧ t.input <:+ s.input

/-- The driver runs a cycle from `s`: STATUS is RUNNING and the cap is not reached (spec/60_exceptions.md R222). -/
def runsCycle (s : State) : Prop := s.status = .running ∧ s.cycles ≠ Config.iterationCap

/-- The two counters set aside. -/
def withCounters (s : State) (ticks instrs : Nat) : State := { s with ticks := ticks, instrs := instrs }

end Sys2Proof.Statements

open Sys2Proof.Statements

/-! ### Encoding and the image -/

/-- spec/30_encoding.md R83 to R85, R88: one word of each format and family, read field by field. -/
def Obligations.SampleWordsDecode : Prop :=
  decode ⟨.add, some 10, some .imm⟩ = .ok (.add .imm 10) ∧
  decode ⟨.mod, some (-7), some .dir⟩ = .ok (.mod .dir (-7)) ∧
  decode ⟨.st, some 4, some .ind⟩ = .ok (.st .ind 4) ∧
  decode ⟨.jz, some 8, some .imm⟩ = .ok (.jz .imm 8) ∧
  decode ⟨.hlt, none, none⟩ = .ok (.hlt none) ∧
  decode ⟨.hlt, some 9, none⟩ = .ok (.hlt (some 9)) ∧
  decode ⟨.var, some 77, none⟩ = .ok (.var 77)

/-- spec/30_encoding.md R80, R83 to R85, R88: decoding and encoding are inverse on every instruction and every word that
decodes, and the word of every instruction passes the checks of R86. -/
def Obligations.DecodeEncodeInverse : Prop :=
  (∀ i : Instr, decode (encode i) = .ok i ∧ checksHold (encode i)) ∧
  (∀ (w : Word) (i : Instr), decode w = .ok i → encode i = w)

/-- spec/30_encoding.md R86: a word decodes exactly when the record checks hold of it, and a refusal names a check that
fails. -/
def Obligations.DecodeRefusesExactlyIllFormed : Prop :=
  ∀ w : Word,
    ((∃ i, decode w = .ok i) ↔ checksHold w) ∧
    (decode w = .error .operandModeGiven → w.operandModeGiven = false) ∧
    (decode w = .error .operandArgGiven → w.operandArgGiven = false) ∧
    (decode w = .error .noModeOnHlt → w.noModeOnHlt = false) ∧
    (decode w = .error .dataShape → w.dataShape = false)

/-- spec/70_reset_and_hazards.md R231: a well-formed image of at most INPUT_PORT words is loaded word by word from
address 0, with the start PC and the input the host gives and every other state as at reset; any other image is
refused. -/
def Obligations.LoadPlacesImage : Prop :=
  ∀ (image : List Word) (startPC : Int) (input : List Nat),
    ((∀ w ∈ image, checksHold w) ∧ image.length ≤ Config.inputPort →
      ∃ mem, State.load image startPC input = .next { State.reset with mem := mem, pc := startPC, input := input } ∧
        (∀ (i : Nat) (h : i < image.length), mem.read i = image[i]) ∧
        (∀ i : Nat, image.length ≤ i → mem.read i = Word.data 0)) ∧
    (¬((∀ w ∈ image, checksHold w) ∧ image.length ≤ Config.inputPort) →
      ∃ r, State.load image startPC input = .refused r)

/-- spec/10_state.md R38 before the host has loaded anything: the values a rule can read. PC = 0 and an empty input are
the MODEL'S choice (log entries 5 and 6). Nothing is claimed of AR, ALU.left, ALU.right, ALU.out, MEM_OUT and CUR, as
spec/92_eei_decisions.md D8 asks. -/
def Obligations.ResetStartsBlank : Prop :=
  (∀ a : Nat, State.reset.mem.read a = Word.data 0) ∧
  State.reset.acc = none ∧ State.reset.alu.zero = none ∧ State.reset.alu.neg = none ∧ State.reset.output = [] ∧
  State.reset.ticks = 0 ∧ State.reset.instrs = 0 ∧ State.reset.cycles = 0 ∧ State.reset.status = .running ∧
  State.reset.pc = 0 ∧ State.reset.input = []

/-- Two canonical memories that read the same everywhere are the same data (log entry 8, spec/20_memory.md R50). -/
def Obligations.CanonicalMemoryIsExtensional : Prop :=
  ∀ m m' : Memory, m.wf = true → m'.wf = true → (∀ a : Nat, m.read a = m'.read a) → m = m'

/-! ### The ALU -/

/-- spec/40_alu.md R107 and R108: floor division and floor modulo on every sign combination with a nonzero divisor. -/
def Obligations.FloorDivisionAndModulo : Prop :=
  ∀ r l : Int, l ≠ 0 →
    fdiv r l = ⌊(r : ℚ) / (l : ℚ)⌋ ∧
    fmod r l = r - l * ⌊(r : ℚ) / (l : ℚ)⌋ ∧
    fdiv r l * l + fmod r l = r ∧
    (0 < l → 0 ≤ fmod r l ∧ fmod r l < l) ∧
    (l < 0 → l < fmod r l ∧ fmod r l ≤ 0)

/-- The table of spec/40_alu.md R112, row by row. -/
def Obligations.DivisionTable : Prop :=
  (fdiv 7 2, fmod 7 2) = (3, 1) ∧ (fdiv (-7) 2, fmod (-7) 2) = (-4, 1) ∧
  (fdiv 7 (-2), fmod 7 (-2)) = (-4, -1) ∧ (fdiv (-7) (-2), fmod (-7) (-2)) = (3, -1) ∧
  (fdiv 6 3, fmod 6 3) = (2, 0) ∧ (fdiv (-6) 3, fmod (-6) 3) = (-2, 0) ∧ (fdiv 6 (-3), fmod 6 (-3)) = (-2, 0) ∧
  (fdiv 0 5, fmod 0 5) = (0, 0) ∧ (fdiv 0 (-5), fmod 0 (-5)) = (0, 0) ∧ (fdiv 1 5, fmod 1 5) = (0, 1) ∧
  (fdiv (-1) 5, fmod (-1) 5) = (-1, 4) ∧ (fdiv 1 (-5), fmod 1 (-5)) = (-1, -4)

/-- spec/40_alu.md R103 with R104 to R110: `compute` writes ALU.out (but for CMP) and both flags from the exact result;
DIV and MOD with ALU.left = 0 end the run before any write. -/
def Obligations.ComputeWritesResultAndFlags : Prop :=
  ∀ (op : AluOp) (s : State) (l r : Int), s.alu.left = some l → s.alu.right = some r →
    ((op = .div ∨ op = .mod) ∧ l = 0 → (compute op).run s = .error (.ends (.fault (.divideByZero op r))) s) ∧
    (¬((op = .div ∨ op = .mod) ∧ l = 0) →
      (compute op).run s = .ok () { s with
        alu := ⟨some l, some r, if op = .cmp then s.alu.out else some (exactResult op r l),
          some (decide (exactResult op r l = 0)), some (decide (exactResult op r l < 0))⟩ })

/-- spec/40_alu.md R101, R102, R111: the operand selections, and the pass-through they make of ADD. -/
def Obligations.SelectAndPassThrough : Prop :=
  ∀ (v x : Int) (en : Bool) (s : State),
    (selectLeft v en).run s = .ok () { s with alu := { s.alu with left := some (if en = true then v else 0) } } ∧
    (selectRight v en).run s = .ok () { s with alu := { s.alu with right := some (if en = true then v else 0) } } ∧
    (do selectLeft v false; selectRight x true; compute .add : Signal Unit).run s =
      .ok () { s with alu := ⟨some 0, some x, some x, some (decide (x = 0)), some (decide (x < 0))⟩ }

/-! ### The memory interface and the latches -/

/-- spec/20_memory.md R53 to R56 (and R52 for reads): the cases of `MemRead`, by the address in AR. -/
def Obligations.MemReadByRegion : Prop :=
  ∀ (s : State) (a : Int), s.ar = some a →
    (∀ c rest, a = 2046 → s.input = c :: rest →
      memRead.run s = .ok () { s with input := rest, memOut := some (Word.data c) }) ∧
    (a = 2046 → s.input = [] → memRead.run s = .error (.ends .inputExhausted) s) ∧
    (a = 2047 → memRead.run s = .error (.ends (.fault (.illegalPortAccess .read 2047))) s) ∧
    (0 ≤ a → a < 2046 → memRead.run s = .ok () { s with memOut := some (s.mem.read a.toNat) }) ∧
    (a < 0 ∨ 2048 ≤ a → memRead.run s = .error (.ends (.fault (.addressOutOfRange a))) s)

/-- spec/20_memory.md R57 to R60 (and R52 for writes): the cases of `MemWrite`, by the address in AR and the value in
ALU.out. A store replaces one cell whole by a data word and leaves every other cell. The bound 0x10FFFF is CHAR_MAX
(spec/00_scope.md R5), which the spec takes from general knowledge (spec/92_eei_decisions.md D17): PRESUMED, log
entry 12. -/
def Obligations.MemWriteByRegion : Prop :=
  ∀ (s : State) (a v : Int), s.ar = some a → s.alu.out = some v →
    (a = 2047 → 0 ≤ v → v ≤ 0x10FFFF → memWrite.run s = .ok () { s with output := s.output ++ [v.toNat] }) ∧
    (a = 2047 → v < 0 ∨ 0x10FFFF < v → memWrite.run s = .error (.ends (.fault (.outputUnrepresentable v))) s) ∧
    (a = 2046 → memWrite.run s = .error (.ends (.fault (.illegalPortAccess .write 2046))) s) ∧
    (0 ≤ a → a < 2046 → ∃ mem, memWrite.run s = .ok () { s with mem := mem } ∧
      ∀ b : Nat, mem.read b = if b = a.toNat then ⟨.var, some v, none⟩ else s.mem.read b) ∧
    (a < 0 ∨ 2048 ≤ a → memWrite.run s = .error (.ends (.fault (.addressOutOfRange a))) s)

/-- spec/41_sequencer.md R120, R121, R122: both latch signals from each of the three sources. -/
def Obligations.LatchSignalsFromEachSource : Prop :=
  ∀ s : State,
    (latchAddressRegister .pc).run s = .ok () { s with ar := some s.pc } ∧
    (latchAccumulator .pc).run s = .ok () { s with acc := some s.pc } ∧
    (∀ x, s.alu.out = some x →
      (latchAddressRegister .alu).run s = .ok () { s with ar := some x } ∧
      (latchAccumulator .alu).run s = .ok () { s with acc := some x }) ∧
    (∀ w v, s.memOut = some w → w.arg = some v →
      (latchAddressRegister .mem).run s = .ok () { s with ar := some v } ∧
      (latchAccumulator .mem).run s = .ok () { s with acc := some v }) ∧
    (∀ w, s.memOut = some w → w.arg = none →
      (latchAddressRegister .mem).run s = .error (.ends (.fault (.argumentAbsent w))) s ∧
      (latchAccumulator .mem).run s = .error (.ends (.fault (.argumentAbsent w))) s) ∧
    (s.memOut = none →
      (latchAddressRegister .mem).run s = .error (.ends (.fault .memOutAbsent)) s ∧
      (latchAccumulator .mem).run s = .error (.ends (.fault .memOutAbsent)) s)

/-- spec/41_sequencer.md R125: the fetch phase, by the region PC points into. -/
def Obligations.FetchByRegion : Prop :=
  ∀ s : State,
    (0 ≤ s.pc → s.pc < 2046 →
      fetch.run s = .ok (s.mem.read s.pc.toNat) { s with
        ar := some s.pc, memOut := some (s.mem.read s.pc.toNat), cur := some (s.mem.read s.pc.toNat),
        ticks := s.ticks + 1 }) ∧
    (∀ c rest, s.pc = 2046 → s.input = c :: rest →
      fetch.run s = .ok (Word.data c) { s with
        ar := some 2046, memOut := some (Word.data c), cur := some (Word.data c), input := rest,
        ticks := s.ticks + 1 }) ∧
    (s.pc = 2046 → s.input = [] → fetch.run s = .error (.ends .inputExhausted) { s with ar := some 2046 }) ∧
    (s.pc = 2047 →
      fetch.run s = .error (.ends (.fault (.illegalPortAccess .read 2047))) { s with ar := some 2047 }) ∧
    (s.pc < 0 ∨ 2048 ≤ s.pc →
      fetch.run s = .error (.ends (.fault (.addressOutOfRange s.pc))) { s with ar := some s.pc })

/-! ### What each instruction does -/

/-- spec/42_arithmetic.md R150 to R152: ADD, SUB and MUL from every addressing mode, with their faults. -/
def Obligations.AddSubMulExecute : Prop :=
  (accumulatesBy .add (fun a v => a + v) (fun _ => True) ∧ operandThenAccFaults .add) ∧
  (accumulatesBy .sub (fun a v => a - v) (fun _ => True) ∧ operandThenAccFaults .sub) ∧
  (accumulatesBy .mul (fun a v => a * v) (fun _ => True) ∧ operandThenAccFaults .mul)

/-- spec/42_arithmetic.md R153 and R154: DIV and MOD, with DivideByZero and their other faults. -/
def Obligations.DivModExecute : Prop :=
  (accumulatesBy .div (fun a v => ⌊(a : ℚ) / (v : ℚ)⌋) (fun v => v ≠ 0) ∧ faultsOnZero .div .div ∧
    operandThenAccFaults .div) ∧
  (accumulatesBy .mod (fun a v => a - v * ⌊(a : ℚ) / (v : ℚ)⌋) (fun v => v ≠ 0) ∧ faultsOnZero .mod .mod ∧
    operandThenAccFaults .mod)

/-- spec/42_arithmetic.md R155: CMP sets the flags from ACC - v and keeps ACC and ALU.out. -/
def Obligations.CmpExecutes : Prop :=
  (∀ m n s o v a, operandRead (encode (.cmp m n)) m n s = some o → o.word.arg = some v → s.acc = some a →
    exec (.cmp m n) s =
      .next (State.completed { afterPhases (.cmp m n) m o s with
        alu := ⟨some v, some a, s.alu.out, some (decide (a = v)), some (decide (a < v))⟩
        pc := s.pc + 1 })) ∧
  operandThenAccFaults .cmp

/-- spec/43_load_store.md R170: LD loads the operand value and leaves the ALU alone, with the faults of its reads. -/
def Obligations.LdExecutes : Prop :=
  (∀ m n s o, operandRead (encode (.ld m n)) m n s = some o →
    (∀ v, o.word.arg = some v →
      exec (.ld m n) s =
        .next (State.completed { afterPhases (.ld m n) m o s with acc := some v, pc := s.pc + 1 })) ∧
    (o.word.arg = none →
      exec (.ld m n) s = .next ((afterPhases (.ld m n) m o s).endRun (.fault (.argumentAbsent o.word))))) ∧
  (∀ m n s, readsFailFirst (.ld m n) m n s)

/-- spec/43_load_store.md R171: ST writes the accumulator at the address its operand value gives, through the ALU; the
output port appends; every fault comes after the signals before it (spec/60_exceptions.md R212). The bound 0x10FFFF is
CHAR_MAX (spec/00_scope.md R5), which the spec takes from general knowledge (spec/92_eei_decisions.md D17): PRESUMED, log
entry 12. -/
def Obligations.StExecutes : Prop :=
  ∀ m n s o, operandRead (encode (.st m n)) m n s = some o →
    (o.word.arg = none →
      exec (.st m n) s = .next ((afterPhases (.st m n) m o s).endRun (.fault (.argumentAbsent o.word)))) ∧
    (∀ v, o.word.arg = some v → s.acc = none →
      exec (.st m n) s =
        .next (State.endRun
          { afterPhases (.st m n) m o s with ar := some v, alu := { s.alu with left := some 0 } }
          (.fault (.uninitialisedRead .acc)))) ∧
    (∀ v a, o.word.arg = some v → s.acc = some a →
      (0 ≤ v → v < 2046 →
        ∃ mem, (∀ b : Nat, mem.read b = if b = v.toNat then Word.data a else s.mem.read b) ∧
          exec (.st m n) s =
            .next (State.completed { afterPhases (.st m n) m o s with
              ar := some v, alu := Alu.computed 0 a a, mem := mem, pc := s.pc + 1 })) ∧
      (v = 2047 → 0 ≤ a → a ≤ 0x10FFFF →
        exec (.st m n) s =
          .next (State.completed { afterPhases (.st m n) m o s with
            ar := some v, alu := Alu.computed 0 a a, output := s.output ++ [a.toNat], pc := s.pc + 1 })) ∧
      (∀ k, (v = 2047 ∧ (a < 0 ∨ 0x10FFFF < a) ∧ k = .outputUnrepresentable a) ∨
          (v = 2046 ∧ k = .illegalPortAccess .write 2046) ∨
          ((v < 0 ∨ 2048 ≤ v) ∧ k = .addressOutOfRange v) →
        exec (.st m n) s =
          .next (State.endRun { afterPhases (.st m n) m o s with ar := some v, alu := Alu.computed 0 a a } (.fault k))))

/-- spec/44_control.md R180: JMP writes PC with the operand value, unchecked, with the faults of its reads. -/
def Obligations.JmpExecutes : Prop :=
  (∀ m n s o, operandRead (encode (.jmp m n)) m n s = some o →
    (∀ v, o.word.arg = some v →
      exec (.jmp m n) s = .next (State.completed { afterPhases (.jmp m n) m o s with pc := v })) ∧
    (o.word.arg = none →
      exec (.jmp m n) s = .next ((afterPhases (.jmp m n) m o s).endRun (.fault (.argumentAbsent o.word))))) ∧
  (∀ m n s, readsFailFirst (.jmp m n) m n s)

/-- spec/44_control.md R181: JZ jumps on the zero flag, falls through without reading the argument, and faults on a flag
never written; the faults of its reads come first, whether or not it is taken. -/
def Obligations.JzExecutes : Prop :=
  (∀ m n s o, operandRead (encode (.jz m n)) m n s = some o →
    (∀ v, s.alu.zero = some true → o.word.arg = some v →
      exec (.jz m n) s = .next (State.completed { afterPhases (.jz m n) m o s with pc := v })) ∧
    (s.alu.zero = some true → o.word.arg = none →
      exec (.jz m n) s = .next ((afterPhases (.jz m n) m o s).endRun (.fault (.argumentAbsent o.word)))) ∧
    (s.alu.zero = some false →
      exec (.jz m n) s = .next (State.completed { afterPhases (.jz m n) m o s with pc := s.pc + 1 })) ∧
    (s.alu.zero = none →
      exec (.jz m n) s = .next ((afterPhases (.jz m n) m o s).endRun (.fault (.uninitialisedRead .zero))))) ∧
  (∀ m n s, readsFailFirst (.jz m n) m n s)

/-- spec/44_control.md R182 and spec/41_sequencer.md R131: HLT ends the run HALTED with PC on it, no execute tick and no
instruction counted, for either value of OPERAND_FETCH_ON_NONE. -/
def Obligations.HltEndsRun : Prop :=
  ∀ (arg : Option Int) (s : State), generalPurpose s.pc →
    exec (.hlt arg) s = .next ((afterNone (.hlt arg) s).endRun .halted)

/-- spec/44_control.md R183: a VAR word executed ends the run with VarExecuted(PC, v). -/
def Obligations.VarEndsRunWithFault : Prop :=
  ∀ (v : Int) (s : State), generalPurpose s.pc →
    exec (.var v) s = .next ((afterNone (.var v) s).endRun (.fault (.varExecuted s.pc v)))

/-- spec/60_exceptions.md R203, R204, R207, R208 and R212: where a read of phase 2 or 3 fails, every operand instruction
ends the run there, with the signals before it done and none after it. -/
def Obligations.OperandReadsFailFirst : Prop :=
  ∀ (i : Instr) (m : Mode) (n : Int) (s : State), operandOf i = some (m, n) → readsFailFirst i m n s

/-- spec/43_load_store.md R172: ST writes one level deeper than LD reads, and LD's value is that address, when every
address in the chain is general-purpose. -/
def Obligations.StoreIsOneLevelDeeper : Prop :=
  ∀ (s : State) (n a : Int), s.acc = some a →
    (generalPurpose n →
      (∃ t, exec (.st .imm n) s = .next t ∧
        ∀ b : Nat, t.mem.read b = if b = n.toNat then Word.data a else s.mem.read b) ∧
      (∃ t, exec (.ld .imm n) s = .next t ∧ t.acc = some n)) ∧
    (∀ p, generalPurpose n → (s.mem.read n.toNat).arg = some p → generalPurpose p →
      (∃ t, exec (.st .dir n) s = .next t ∧
        ∀ b : Nat, t.mem.read b = if b = p.toNat then Word.data a else s.mem.read b) ∧
      (∃ t, exec (.ld .dir n) s = .next t ∧ t.acc = some p)) ∧
    (∀ p q, generalPurpose n → (s.mem.read n.toNat).arg = some p → generalPurpose p →
      (s.mem.read p.toNat).arg = some q → generalPurpose q →
      (∃ t, exec (.st .ind n) s = .next t ∧
        ∀ b : Nat, t.mem.read b = if b = q.toNat then Word.data a else s.mem.read b) ∧
      (∃ t, exec (.ld .ind n) s = .next t ∧ t.acc = some q))

/-! ### What each instruction leaves unchanged -/

/-- Frame of ADD, SUB, MUL, DIV and MOD, however the cycle ends: they write ACC, the ALU, the latches AR, MEM_OUT and
CUR, the counters, PC and STATUS, may consume input, and leave every cell, the output and CYCLES. -/
def Obligations.ArithmeticFrame : Prop :=
  ∀ (m : Mode) (n : Int) (s t : State),
    (exec (.add m n) s = .next t ∨ exec (.sub m n) s = .next t ∨ exec (.mul m n) s = .next t ∨
      exec (.div m n) s = .next t ∨ exec (.mod m n) s = .next t) →
    sameCells s t ∧ sameStreams s t

/-- Frame of CMP: as the arithmetic frame, and ACC and ALU.out keep their values. -/
def Obligations.CmpFrame : Prop :=
  ∀ (m : Mode) (n : Int) (s t : State), exec (.cmp m n) s = .next t →
    sameCells s t ∧ sameStreams s t ∧ t.acc = s.acc ∧ t.alu.out = s.alu.out

/-- Frame of LD: every cell, the output, CYCLES and the whole ALU, flags included (spec/70_reset_and_hazards.md R236). -/
def Obligations.LdFrame : Prop :=
  ∀ (m : Mode) (n : Int) (s t : State), exec (.ld m n) s = .next t →
    sameCells s t ∧ sameStreams s t ∧ t.alu = s.alu

/-- Frame of ST: ACC and CYCLES, every cell but the one at the address ST computes, and the output but for one element
appended where that address is the output port. -/
def Obligations.StFrame : Prop :=
  ∀ (m : Mode) (n : Int) (s t : State), exec (.st m n) s = .next t →
    t.acc = s.acc ∧ t.cycles = s.cycles ∧ t.input <:+ s.input ∧
    (∀ b : Nat, storeAddress m n s ≠ some (b : Int) → t.mem.read b = s.mem.read b) ∧
    (storeAddress m n s ≠ some (Config.outputPort : Int) → t.output = s.output) ∧
    (t.output = s.output ∨ ∃ c, t.output = s.output ++ [c])

/-- Frame of JMP, JZ, HLT and VAR: ACC, the ALU, every cell, the output and CYCLES. -/
def Obligations.ControlFrame : Prop :=
  ∀ (i : Instr) (s t : State),
    ((∃ m n, i = .jmp m n) ∨ (∃ m n, i = .jz m n) ∨ (∃ arg, i = .hlt arg) ∨ (∃ v, i = .var v)) →
    exec i s = .next t →
    sameCells s t ∧ sameStreams s t ∧ t.acc = s.acc ∧ t.alu = s.alu

/-! ### One step -/

/-- A step runs the decoded instruction: where the driver runs a cycle and the word PC points at decodes to `i`, the step
is `exec i` from the state the fetch leaves, with CYCLES counted (spec/41_sequencer.md R135, spec/60_exceptions.md R222). -/
def Obligations.StepRunsFetchedInstruction : Prop :=
  ∀ (s : State) (i : Instr), runsCycle s → generalPurpose s.pc → decode (s.mem.read s.pc.toNat) = .ok i →
    step s = exec i { s with
      cycles := s.cycles + 1
      ar := some s.pc
      memOut := some (encode i)
      cur := some (encode i)
      ticks := s.ticks + 1 }

/-- spec/60_exceptions.md R224: a terminated state no longer changes. -/
def Obligations.TerminatedIsAbsorbing : Prop :=
  ∀ s : State, s.status ≠ .running → step s = .next s

/-- spec/60_exceptions.md R222: the cap is checked before the cycle, and ends the run with nothing else changed. Where
the boundary lies is the spec's own reading (spec/92_eei_decisions.md D18, log entry 27). -/
def Obligations.CapStopsBeforeCycle : Prop :=
  ∀ s : State, s.status = .running → s.cycles = 1000000 → step s = .next { s with status := .ended .capReached }

/-- spec/70_reset_and_hazards.md R240: running off the end. A default word faults VarExecuted; the input port consumes a
character and then faults VarExecuted, or ends INPUT_EXHAUSTED; the output port and anything beyond fault. -/
def Obligations.RunningOffTheEnd : Prop :=
  ∀ s : State, runsCycle s →
    (generalPurpose s.pc → s.mem.read s.pc.toNat = Word.data 0 →
      ∃ t, step s = .next t ∧ t.status = .ended (.fault (.varExecuted s.pc 0))) ∧
    (∀ c d rest, s.pc = 2046 → s.input = c :: d :: rest →
      ∃ t, step s = .next t ∧ t.status = .ended (.fault (.varExecuted 2046 c)) ∧
        t.input = if Config.operandFetchOnNone then rest else d :: rest) ∧
    (∀ c, s.pc = 2046 → s.input = [c] →
      ∃ t, step s = .next t ∧ t.input = [] ∧
        t.status = if Config.operandFetchOnNone then .ended .inputExhausted
          else .ended (.fault (.varExecuted 2046 c))) ∧
    (s.pc = 2046 → s.input = [] → ∃ t, step s = .next t ∧ t.status = .ended .inputExhausted) ∧
    (s.pc = 2047 → ∃ t, step s = .next t ∧ t.status = .ended (.fault (.illegalPortAccess .read 2047))) ∧
    (s.pc < 0 ∨ 2048 ≤ s.pc → ∃ t, step s = .next t ∧ t.status = .ended (.fault (.addressOutOfRange s.pc)))

/-- spec/70_reset_and_hazards.md R241 (with R242 for the reads): the ticks of a whole cycle that completes, by addressing
mode, and of HLT and VAR fetched at a general-purpose address. That an ending cycle gets no execute tick is the spec's own
decision (spec/92_eei_decisions.md D10, log entry 16); the tick of the re-read is open (D13, log entry 10), so both values
are stated. -/
def Obligations.CycleTicksByMode : Prop :=
  ∀ (s t : State) (i : Instr), runsCycle s → generalPurpose s.pc → decode (s.mem.read s.pc.toNat) = .ok i →
    step s = .next t →
    (∀ m n, operandOf i = some (m, n) → t.status = .running →
      t.ticks = s.ticks + match m with | .imm => 2 | .dir => 3 | .ind => 4) ∧
    (operandOf i = none → t.ticks = s.ticks + if Config.operandFetchOnNone then 2 else 1)

/-- spec/41_sequencer.md R134: INSTRS advances by one exactly when the cycle completes without ending the run. -/
def Obligations.InstrsCountsCompletedCycles : Prop :=
  ∀ s t : State, runsCycle s → step s = .next t →
    t.instrs = if t.status = .running then s.instrs + 1 else s.instrs

/-- spec/10_state.md R24 and spec/60_exceptions.md R202: a cycle that ends the run leaves PC at its own address. -/
def Obligations.EndedCycleKeepsPC : Prop :=
  ∀ s t : State, s.status = .running → step s = .next t → t.status ≠ .running → t.pc = s.pc

/-! ### The whole machine -/

/-- `exec` answers a next state from every state, for every instruction: a terminal condition is recorded in STATUS and
no latch is read before it is written (spec/10_state.md R39, spec/93_implementation_defined.md I16). -/
def Obligations.ExecAlwaysAnswersNext : Prop :=
  ∀ (i : Instr) (s : State), ∃ t, exec i s = .next t

/-- The invariant holds before anything is loaded. -/
def Obligations.InvariantAtReset : Prop := State.reset.Inv

/-- The invariant holds at the start of every run the host loads (spec/30_encoding.md R86, spec/10_state.md R38). -/
def Obligations.InvariantAtLoad : Prop :=
  ∀ (image : List Word) (startPC : Int) (input : List Nat) (s : State), State.load image startPC input = .next s → s.Inv

/-- Every step keeps the invariant: canonical memory, well-formed words (spec/30_encoding.md R86), the counters and the
cap (spec/41_sequencer.md R134, spec/60_exceptions.md R222), only character codes written out (spec/20_memory.md R58, with
CHAR_MAX PRESUMED, D17, log entry 12), the flags written together (spec/10_state.md R27, R28). -/
def Obligations.StepKeepsInvariant : Prop :=
  ∀ s t : State, s.Inv → step s = .next t → t.Inv

/-- From a state with the invariant a step always answers a next state: nothing is refused and nothing stops outside the
terminal conditions of spec/60_exceptions.md R200. -/
def Obligations.StepNeverStopsOutsideStatus : Prop :=
  ∀ s : State, s.Inv → ∃ t, step s = .next t

/-- spec/20_memory.md R60 and R68, spec/70_reset_and_hazards.md R232: whatever a step does, each cell keeps its word or
holds a data word: a program cannot create or change an executable instruction. -/
def Obligations.StepStoresOnlyData : Prop :=
  ∀ (s t : State) (b : Nat), step s = .next t → t.mem.read b = s.mem.read b ∨ ∃ v : Int, t.mem.read b = Word.data v

/-- spec/10_state.md R33, R34, R35: a step only drops characters from the front of IN, only appends (at most one) to
OUT_SEQ, and never lowers a counter. -/
def Obligations.StreamsAndCountersAreMonotone : Prop :=
  ∀ s t : State, step s = .next t →
    t.input <:+ s.input ∧ (t.output = s.output ∨ ∃ c, t.output = s.output ++ [c]) ∧
    s.ticks ≤ t.ticks ∧ s.instrs ≤ t.instrs ∧ s.cycles ≤ t.cycles

/-- spec/10_state.md R21, R27: the writers of ACC and of the flags, over whole steps: where ACC changes the instruction
is LD or an arithmetic one; where the zero flag changes it is an arithmetic one, CMP or ST. -/
def Obligations.WritersOfAccAndFlags : Prop :=
  ∀ (s t : State) (i : Instr), runsCycle s → generalPurpose s.pc → decode (s.mem.read s.pc.toNat) = .ok i →
    step s = .next t →
    (t.acc ≠ s.acc → ∃ m n, i = .ld m n ∨ i = .add m n ∨ i = .sub m n ∨ i = .mul m n ∨ i = .div m n ∨ i = .mod m n) ∧
    (t.alu.zero ≠ s.alu.zero ∨ t.alu.neg ≠ s.alu.neg →
      ∃ m n, i = .add m n ∨ i = .sub m n ∨ i = .mul m n ∨ i = .div m n ∨ i = .mod m n ∨ i = .cmp m n ∨ i = .st m n)

/-- spec/20_memory.md R68: a store takes effect for the very next fetch, which finds a data word and faults VarExecuted. -/
def Obligations.StoredCellFaultsWhenFetched : Prop :=
  ∀ (s t : State) (m : Mode) (n a : Int) (b : Nat), exec (.st m n) s = .next t → s.status = .running →
    t.status = .running → s.acc = some a → storeAddress m n s = some (b : Int) → b < 2046 →
    s.cycles ≠ Config.iterationCap →
    ∃ u, step { t with pc := b } = .next u ∧ u.status = .ended (.fault (.varExecuted b a)) ∧ u.pc = b

/-- spec/10_state.md R28, R30, R31, R35, R39: the negative flag, the ALU's other registers, AR, MEM_OUT, CUR, TICKS and
INSTRS at the start of a cycle decide nothing a program can do: states with the same program view step to the same
program view, with the same kind of outcome. -/
def Obligations.HiddenStateDoesNotInterfere : Prop :=
  ∀ s s' : State, s.view = s'.view → viewOutcome (step s) = viewOutcome (step s')

/-- spec/10_state.md R35: the counters TICKS and INSTRS are not part of execution: a step from a state whose counters
were set to anything else gives the same state but for the counters, each advanced by the same amount. -/
def Obligations.CountersDoNotInterfere : Prop :=
  ∀ (s t : State) (k j : Nat), step s = .next t →
    ∃ dt di, t.ticks = s.ticks + dt ∧ t.instrs = s.instrs + di ∧
      step (withCounters s k j) = .next (withCounters t (k + dt) (j + di))

/-- spec/70_reset_and_hazards.md R243 and spec/60_exceptions.md R222: from every state with the invariant, the run ends:
ITERATION_CAP + 1 iterations of the driver's loop reach a terminal condition, never stopping outside one. That at most
ITERATION_CAP cycles run, and that the check of the cap is an iteration of its own, is the spec's own reading of the
boundary (spec/92_eei_decisions.md D18, log entry 27) and the model's step (D27, log entry 9). -/
def Obligations.EveryRunEnds : Prop :=
  ∀ s : State, s.Inv → ∃ t, Host.Core.run Sys2Proof.core (1000000 + 1) s = .next t ∧ t.status ≠ .running
end

