-- ==== Sys2Proof/Laws/State.lean ====
section
/-! SUPPORT. The small lemmas of the state's named updates: one per field per update, each true by rfl. -/

namespace Sys2Proof.Machine

/-! ### Ending the run -/

@[simp] theorem State.endRun_acc (s : State) (c : Terminal) : (s.endRun c).acc = s.acc := rfl
@[simp] theorem State.endRun_ar (s : State) (c : Terminal) : (s.endRun c).ar = s.ar := rfl
@[simp] theorem State.endRun_pc (s : State) (c : Terminal) : (s.endRun c).pc = s.pc := rfl
@[simp] theorem State.endRun_alu (s : State) (c : Terminal) : (s.endRun c).alu = s.alu := rfl
@[simp] theorem State.endRun_memOut (s : State) (c : Terminal) : (s.endRun c).memOut = s.memOut := rfl
@[simp] theorem State.endRun_cur (s : State) (c : Terminal) : (s.endRun c).cur = s.cur := rfl
@[simp] theorem State.endRun_mem (s : State) (c : Terminal) : (s.endRun c).mem = s.mem := rfl
@[simp] theorem State.endRun_input (s : State) (c : Terminal) : (s.endRun c).input = s.input := rfl
@[simp] theorem State.endRun_output (s : State) (c : Terminal) : (s.endRun c).output = s.output := rfl
@[simp] theorem State.endRun_ticks (s : State) (c : Terminal) : (s.endRun c).ticks = s.ticks := rfl
@[simp] theorem State.endRun_instrs (s : State) (c : Terminal) : (s.endRun c).instrs = s.instrs := rfl
@[simp] theorem State.endRun_status (s : State) (c : Terminal) : (s.endRun c).status = .ended c := rfl
@[simp] theorem State.endRun_cycles (s : State) (c : Terminal) : (s.endRun c).cycles = s.cycles := rfl

/-! ### A completed execute step -/

@[simp] theorem State.completed_acc (s : State) : (s.completed).acc = s.acc := rfl
@[simp] theorem State.completed_ar (s : State) : (s.completed).ar = s.ar := rfl
@[simp] theorem State.completed_pc (s : State) : (s.completed).pc = s.pc := rfl
@[simp] theorem State.completed_alu (s : State) : (s.completed).alu = s.alu := rfl
@[simp] theorem State.completed_memOut (s : State) : (s.completed).memOut = s.memOut := rfl
@[simp] theorem State.completed_cur (s : State) : (s.completed).cur = s.cur := rfl
@[simp] theorem State.completed_mem (s : State) : (s.completed).mem = s.mem := rfl
@[simp] theorem State.completed_input (s : State) : (s.completed).input = s.input := rfl
@[simp] theorem State.completed_output (s : State) : (s.completed).output = s.output := rfl
@[simp] theorem State.completed_ticks (s : State) : (s.completed).ticks = s.ticks + 1 := rfl
@[simp] theorem State.completed_instrs (s : State) : (s.completed).instrs = s.instrs + 1 := rfl
@[simp] theorem State.completed_status (s : State) : (s.completed).status = s.status := rfl
@[simp] theorem State.completed_cycles (s : State) : (s.completed).cycles = s.cycles := rfl

/-! ### After phases 2 and 3 with an addressing mode -/

@[simp] theorem afterPhases_acc (i : Instr) (m : Mode) (o : OperandRead) (s : State) : (afterPhases i m o s).acc = s.acc := rfl
@[simp] theorem afterPhases_ar (i : Instr) (m : Mode) (o : OperandRead) (s : State) : (afterPhases i m o s).ar = some o.ar := rfl
@[simp] theorem afterPhases_pc (i : Instr) (m : Mode) (o : OperandRead) (s : State) : (afterPhases i m o s).pc = s.pc := rfl
@[simp] theorem afterPhases_alu (i : Instr) (m : Mode) (o : OperandRead) (s : State) : (afterPhases i m o s).alu = s.alu := rfl
@[simp] theorem afterPhases_memOut (i : Instr) (m : Mode) (o : OperandRead) (s : State) : (afterPhases i m o s).memOut = some o.word := rfl
@[simp] theorem afterPhases_cur (i : Instr) (m : Mode) (o : OperandRead) (s : State) : (afterPhases i m o s).cur = some (encode i) := rfl
@[simp] theorem afterPhases_mem (i : Instr) (m : Mode) (o : OperandRead) (s : State) : (afterPhases i m o s).mem = s.mem := rfl
@[simp] theorem afterPhases_input (i : Instr) (m : Mode) (o : OperandRead) (s : State) : (afterPhases i m o s).input = o.input := rfl
@[simp] theorem afterPhases_output (i : Instr) (m : Mode) (o : OperandRead) (s : State) : (afterPhases i m o s).output = s.output := rfl
@[simp] theorem afterPhases_ticks (i : Instr) (m : Mode) (o : OperandRead) (s : State) : (afterPhases i m o s).ticks = s.ticks + phaseTicks m := rfl
@[simp] theorem afterPhases_instrs (i : Instr) (m : Mode) (o : OperandRead) (s : State) : (afterPhases i m o s).instrs = s.instrs := rfl
@[simp] theorem afterPhases_status (i : Instr) (m : Mode) (o : OperandRead) (s : State) : (afterPhases i m o s).status = s.status := rfl
@[simp] theorem afterPhases_cycles (i : Instr) (m : Mode) (o : OperandRead) (s : State) : (afterPhases i m o s).cycles = s.cycles := rfl

/-! ### After phases 2 and 3 without an addressing mode -/

@[simp] theorem afterNone_acc (i : Instr) (s : State) : (afterNone i s).acc = s.acc := rfl
@[simp] theorem afterNone_ar (i : Instr) (s : State) : (afterNone i s).ar = some s.pc := rfl
@[simp] theorem afterNone_pc (i : Instr) (s : State) : (afterNone i s).pc = s.pc := rfl
@[simp] theorem afterNone_alu (i : Instr) (s : State) : (afterNone i s).alu = s.alu := rfl
@[simp] theorem afterNone_memOut (i : Instr) (s : State) : (afterNone i s).memOut = some (if Config.operandFetchOnNone then s.mem.read s.pc.toNat else encode i) := rfl
@[simp] theorem afterNone_cur (i : Instr) (s : State) : (afterNone i s).cur = some (encode i) := rfl
@[simp] theorem afterNone_mem (i : Instr) (s : State) : (afterNone i s).mem = s.mem := rfl
@[simp] theorem afterNone_input (i : Instr) (s : State) : (afterNone i s).input = s.input := rfl
@[simp] theorem afterNone_output (i : Instr) (s : State) : (afterNone i s).output = s.output := rfl
@[simp] theorem afterNone_ticks (i : Instr) (s : State) : (afterNone i s).ticks = s.ticks + (if Config.operandFetchOnNone then 1 else 0) := rfl
@[simp] theorem afterNone_instrs (i : Instr) (s : State) : (afterNone i s).instrs = s.instrs := rfl
@[simp] theorem afterNone_status (i : Instr) (s : State) : (afterNone i s).status = s.status := rfl
@[simp] theorem afterNone_cycles (i : Instr) (s : State) : (afterNone i s).cycles = s.cycles := rfl

/-! ### The ALU after a compute -/

@[simp] theorem Alu.commit_left (alu : Alu) (op : AluOp) (r : Int) : (alu.commit op r).left = alu.left := rfl
@[simp] theorem Alu.commit_right (alu : Alu) (op : AluOp) (r : Int) : (alu.commit op r).right = alu.right := rfl
@[simp] theorem Alu.commit_out (alu : Alu) (op : AluOp) (r : Int) : (alu.commit op r).out = if op = .cmp then alu.out else some r := rfl
@[simp] theorem Alu.commit_zero (alu : Alu) (op : AluOp) (r : Int) : (alu.commit op r).zero = some (zeroFlag r) := rfl
@[simp] theorem Alu.commit_neg (alu : Alu) (op : AluOp) (r : Int) : (alu.commit op r).neg = some (negFlag r) := rfl

@[simp] theorem Alu.computed_left (l r x : Int) : (Alu.computed l r x).left = some l := rfl
@[simp] theorem Alu.computed_right (l r x : Int) : (Alu.computed l r x).right = some r := rfl
@[simp] theorem Alu.computed_out (l r x : Int) : (Alu.computed l r x).out = some x := rfl
@[simp] theorem Alu.computed_zero (l r x : Int) : (Alu.computed l r x).zero = some (decide (x = 0)) := rfl
@[simp] theorem Alu.computed_neg (l r x : Int) : (Alu.computed l r x).neg = some (decide (x < 0)) := rfl

/-! ### The program's view -/

@[simp] theorem State.view_acc (s : State) : s.view.acc = s.acc := rfl
@[simp] theorem State.view_pc (s : State) : s.view.pc = s.pc := rfl
@[simp] theorem State.view_zero (s : State) : s.view.zero = s.alu.zero := rfl
@[simp] theorem State.view_mem (s : State) : s.view.mem = s.mem := rfl
@[simp] theorem State.view_input (s : State) : s.view.input = s.input := rfl
@[simp] theorem State.view_output (s : State) : s.view.output = s.output := rfl
@[simp] theorem State.view_status (s : State) : s.view.status = s.status := rfl
@[simp] theorem State.view_cycles (s : State) : s.view.cycles = s.cycles := rfl

/-! ### Reset -/

@[simp] theorem State.reset_mem : State.reset.mem = [] := rfl
@[simp] theorem State.reset_output : State.reset.output = [] := rfl
@[simp] theorem State.reset_status : State.reset.status = .running := rfl
@[simp] theorem State.reset_alu : State.reset.alu = Alu.reset := rfl

/-! ### The parameters -/

theorem config_inputPort_val : Config.inputPort = 2046 := rfl
theorem config_outputPort_val : Config.outputPort = 2047 := rfl
theorem config_iterationCap_val : Config.iterationCap = 1000000 := rfl
theorem config_charMax_val : Config.charMax = 1114111 := rfl

/-- The constraints spec/00_scope.md R5 puts on the parameters. -/
theorem config_parameters_valid :
    3 ≤ Config.memSize ∧ Config.inputPort = Config.memSize - 2 ∧ Config.outputPort = Config.memSize - 1 := by
  decide

end Sys2Proof.Machine
end

