-- ==== Sys2Proof/Laws/Memory.lean ====
section
/-! SUPPORT. The laws of memory: a read after a write, and the canonical form kept by every operation. -/

namespace Sys2Proof.Machine

theorem Memory.clear_cons (k : Nat) (w : Word) (rest : Memory) (a : Nat) :
    Memory.clear ((k, w) :: rest) a = if k = a then Memory.clear rest a else (k, w) :: Memory.clear rest a := by
  by_cases hk : k = a <;> simp [Memory.clear, hk]

theorem Memory.read_clear (m : Memory) (a b : Nat) :
    (m.clear a).read b = if b = a then Word.data 0 else m.read b := by
  induction m with
  | nil => simp [Memory.clear, Memory.read]
  | cons c rest ih =>
    obtain ⟨k, w⟩ := c
    rw [Memory.clear_cons]
    by_cases hk : k = a
    · subst hk
      by_cases hb : b = k
      · simp_all
      · simp [Memory.read, ih, hb, Ne.symm hb]
    · by_cases hb : k = b
      · subst hb; simp [Memory.read, hk]
      · simp [Memory.read, hk, hb, ih]

theorem Memory.read_insert (m : Memory) (a b : Nat) (w : Word) :
    (m.insert a w).read b = if b = a then w else m.read b := by
  induction m with
  | nil => simp [Memory.insert, Memory.read, eq_comm]
  | cons c rest ih =>
    obtain ⟨k, v⟩ := c
    simp only [Memory.insert]
    split
    · simp [Memory.read, eq_comm]
    · split
      · rename_i h; subst h
        by_cases hb : b = a
        · simp [Memory.read, hb]
        · simp [Memory.read, hb, Ne.symm hb]
      · by_cases hb : k = b
        · subst hb; simp_all [Memory.read, eq_comm]
        · simp [Memory.read, hb, ih]

/-- A read after a write: the written cell reads as the word, every other cell as before, in every memory. -/
@[simp] theorem Memory.read_write (m : Memory) (a b : Nat) (w : Word) :
    (m.write a w).read b = if b = a then w else m.read b := by
  unfold Memory.write
  split
  · rename_i h; rw [Memory.read_clear, h]
  · rw [Memory.read_insert]

theorem Memory.wfFrom_mono (m : Memory) {lo lo' : Nat} (h : lo' ≤ lo) (hm : m.wfFrom lo = true) :
    m.wfFrom lo' = true := by
  cases m with
  | nil => rfl
  | cons c rest =>
    simp only [Memory.wfFrom, Bool.and_eq_true, decide_eq_true_eq] at hm ⊢
    exact ⟨⟨⟨by omega, hm.1.1.2⟩, hm.1.2⟩, hm.2⟩

theorem Memory.wfFrom_clear (m : Memory) (a : Nat) {lo : Nat} (hm : m.wfFrom lo = true) :
    (m.clear a).wfFrom lo = true := by
  induction m generalizing lo with
  | nil => rfl
  | cons c rest ih =>
    obtain ⟨k, w⟩ := c
    simp only [Memory.wfFrom, Bool.and_eq_true, decide_eq_true_eq] at hm
    have hrest := ih hm.2
    by_cases hk : k = a
    · rw [Memory.clear_cons, if_pos hk]
      exact Memory.wfFrom_mono _ (by omega) hrest
    · rw [Memory.clear_cons, if_neg hk]
      simp only [Memory.wfFrom, Bool.and_eq_true, decide_eq_true_eq]
      exact ⟨hm.1, hrest⟩

theorem Memory.wfFrom_insert (m : Memory) {a lo : Nat} {w : Word} (hm : m.wfFrom lo = true) (hlo : lo ≤ a)
    (ha : a < Config.inputPort) (hw : w ≠ Word.data 0) : (m.insert a w).wfFrom lo = true := by
  induction m generalizing lo with
  | nil => simp [Memory.insert, Memory.wfFrom, hlo, ha, hw]
  | cons c rest ih =>
    obtain ⟨k, v⟩ := c
    simp only [Memory.wfFrom, Bool.and_eq_true, decide_eq_true_eq] at hm
    simp only [Memory.insert]
    split
    · simp only [Memory.wfFrom, Bool.and_eq_true, decide_eq_true_eq]
      exact ⟨⟨⟨hlo, ha⟩, hw⟩, ⟨⟨by omega, hm.1.1.2⟩, hm.1.2⟩, hm.2⟩
    · split
      · rename_i h; subst h
        simp only [Memory.wfFrom, Bool.and_eq_true, decide_eq_true_eq]
        exact ⟨⟨⟨hlo, ha⟩, hw⟩, hm.2⟩
      · simp only [Memory.wfFrom, Bool.and_eq_true, decide_eq_true_eq]
        exact ⟨hm.1, ih hm.2 (by omega)⟩

/-- A write in the general-purpose range keeps the canonical form. -/
theorem Memory.wf_write (m : Memory) {a : Nat} (w : Word) (hm : m.wf = true) (ha : a < Config.inputPort) :
    (m.write a w).wf = true := by
  unfold Memory.write
  split
  · exact Memory.wfFrom_clear m a hm
  · exact Memory.wfFrom_insert m hm (Nat.zero_le a) ha ‹_›

/-- The words listed after a write were listed before it, or are the word written. -/
theorem Memory.mem_write {m : Memory} {a : Nat} {w : Word} {c : Nat × Word} (h : c ∈ m.write a w) :
    c ∈ m ∨ c = (a, w) := by
  unfold Memory.write at h
  split at h
  · exact .inl (List.mem_filter.mp h).1
  · clear * - h
    induction m with
    | nil => exact .inr (by simpa [Memory.insert] using h)
    | cons d rest ih =>
      obtain ⟨k, v⟩ := d
      simp only [Memory.insert] at h
      split at h
      · rcases List.mem_cons.mp h with h | h
        · exact .inr h
        · exact .inl h
      · split at h
        · rcases List.mem_cons.mp h with h | h
          · exact .inr h
          · exact .inl (List.mem_cons_of_mem _ h)
        · rcases List.mem_cons.mp h with h | h
          · exact .inl (h ▸ List.mem_cons_self)
          · rcases ih h with h | h
            · exact .inl (List.mem_cons_of_mem _ h)
            · exact .inr h

/-- Placing an image that leaves the ports free gives a canonical memory. -/
theorem Memory.wfFrom_placeFrom (ws : List Word) (a : Nat) (h : a + ws.length ≤ Config.inputPort) :
    (Memory.placeFrom a ws).wfFrom a = true := by
  induction ws generalizing a with
  | nil => rfl
  | cons w rest ih =>
    have hrest := ih (a + 1) (by simp only [List.length_cons] at h; omega)
    simp only [Memory.placeFrom]
    split
    · exact Memory.wfFrom_mono _ (Nat.le_succ a) hrest
    · simp only [Memory.wfFrom, Bool.and_eq_true, decide_eq_true_eq]
      simp only [List.length_cons] at h
      exact ⟨⟨⟨Nat.le_refl a, by omega⟩, ‹_›⟩, hrest⟩

/-- The words listed after placing an image are words of the image. -/
theorem Memory.mem_placeFrom {ws : List Word} {a : Nat} {c : Nat × Word} (h : c ∈ Memory.placeFrom a ws) : c.2 ∈ ws := by
  induction ws generalizing a with
  | nil => cases h
  | cons w rest ih =>
    simp only [Memory.placeFrom] at h
    split at h
    · exact List.mem_cons_of_mem _ (ih h)
    · rcases List.mem_cons.mp h with h | h
      · subst h; exact List.mem_cons_self
      · exact List.mem_cons_of_mem _ (ih h)

/-- A canonical memory from `lo` on lists nothing below `lo`. -/
theorem Memory.read_below {m : Memory} {lo a : Nat} (hm : m.wfFrom lo = true) (ha : a < lo) :
    m.read a = Word.data 0 := by
  induction m generalizing lo with
  | nil => rfl
  | cons c rest ih =>
    obtain ⟨k, w⟩ := c
    simp only [Memory.wfFrom, Bool.and_eq_true, decide_eq_true_eq] at hm
    have hk : k ≠ a := by omega
    simp only [Memory.read, hk, if_false]
    exact ih hm.2 (by omega)

/-- A word read is the default word or one that is listed. -/
theorem Memory.read_mem (m : Memory) (a : Nat) : m.read a = Word.data 0 ∨ (a, m.read a) ∈ m := by
  induction m with
  | nil => exact .inl rfl
  | cons c rest ih =>
    obtain ⟨k, w⟩ := c
    by_cases hk : k = a
    · subst hk; exact .inr (by simp [Memory.read])
    · simp only [Memory.read, hk, if_false]
      rcases ih with h | h
      · exact .inl h
      · exact .inr (List.mem_cons_of_mem _ h)

/-- Where every listed word is well formed, every word read is. -/
theorem Memory.read_wf {m : Memory} (h : ∀ c ∈ m, c.2.wf = true) (a : Nat) : (m.read a).wf = true := by
  rcases Memory.read_mem m a with hr | hr
  · rw [hr]; rfl
  · exact h _ hr

theorem State.reset_memory_wf : State.reset.mem.wf = true := rfl

end Sys2Proof.Machine
end

