-- ==== Sys2Proof/Laws/PerInstr.lean ====
section
/-! SUPPORT. The family EncodeWellFormed: the word of every instruction passes every check of spec/30_encoding.md R86. -/

namespace Sys2Proof.Laws

/-- The word of `i` is well formed, spec/30_encoding.md R86. -/
def EncodeWellFormed.Statement (i : Instr) : Prop := (encode i).wf = true

theorem EncodeWellFormed.add (m : Mode) (n : Int) : EncodeWellFormed.Statement (.add m n) := rfl
theorem EncodeWellFormed.sub (m : Mode) (n : Int) : EncodeWellFormed.Statement (.sub m n) := rfl
theorem EncodeWellFormed.mul (m : Mode) (n : Int) : EncodeWellFormed.Statement (.mul m n) := rfl
theorem EncodeWellFormed.div (m : Mode) (n : Int) : EncodeWellFormed.Statement (.div m n) := rfl
theorem EncodeWellFormed.mod (m : Mode) (n : Int) : EncodeWellFormed.Statement (.mod m n) := rfl
theorem EncodeWellFormed.cmp (m : Mode) (n : Int) : EncodeWellFormed.Statement (.cmp m n) := rfl
theorem EncodeWellFormed.ld (m : Mode) (n : Int) : EncodeWellFormed.Statement (.ld m n) := rfl
theorem EncodeWellFormed.st (m : Mode) (n : Int) : EncodeWellFormed.Statement (.st m n) := rfl
theorem EncodeWellFormed.jmp (m : Mode) (n : Int) : EncodeWellFormed.Statement (.jmp m n) := rfl
theorem EncodeWellFormed.jz (m : Mode) (n : Int) : EncodeWellFormed.Statement (.jz m n) := rfl
theorem EncodeWellFormed.hlt (arg : Option Int) : EncodeWellFormed.Statement (.hlt arg) := by cases arg <;> rfl
theorem EncodeWellFormed.var (v : Int) : EncodeWellFormed.Statement (.var v) := rfl

end Sys2Proof.Laws
end

