-- ==== Sys2Proof/Laws/Signals.lean ====
section
/-! SUPPORT. One lemma per signal that says once everything it can do, so that no later proof unfolds it. -/

namespace Sys2Proof.Machine

/-! ### Running a sequence of signals -/

@[simp] theorem stop_run {α : Type} (c : Terminal) (s : State) : (stop c : Signal α).run s = .error (.ends c) s := rfl
@[simp] theorem raise_run {α : Type} (k : FaultKind) (s : State) :
    (raise k : Signal α).run s = .error (.ends (.fault k)) s := rfl
@[simp] theorem stuckOn_run {α : Type} (r : Latch) (s : State) :
    (stuckOn r : Signal α).run s = .error (.stuck (.unwrittenLatch r)) s := rfl

@[simp] theorem finish_ok {α : Type} (a : α) (s : State) : finish (.ok a s) = .next s := rfl
@[simp] theorem finish_ends {α : Type} (c : Terminal) (s : State) :
    finish (.error (.ends c) s : EStateM.Result Stop State α) = .next (s.endRun c) := rfl
@[simp] theorem finish_stuck {α : Type} (f : Fault) (s : State) :
    finish (.error (.stuck f) s : EStateM.Result Stop State α) = .fault f := rfl

/-! ### Counters and registers -/

@[simp] theorem tick_run (s : State) : tick.run s = .ok () { s with ticks := s.ticks + 1 } := rfl
@[simp] theorem retire_run (s : State) : retire.run s = .ok () { s with instrs := s.instrs + 1 } := rfl
@[simp] theorem advancePC_run (s : State) : advancePC.run s = .ok () { s with pc := s.pc + 1 } := rfl

theorem readACC_run (s : State) :
    readACC.run s = match s.acc with
      | some a => .ok a s
      | none => .error (.ends (.fault (.uninitialisedRead .acc))) s := by
  unfold readACC; cases h : s.acc <;> simp [h]

@[simp] theorem argOf_some (w : Word) (s : State) :
    (argOf (some w)).run s = match w.arg with
      | some n => .ok n s
      | none => .error (.ends (.fault (.argumentAbsent w))) s := by
  unfold argOf; cases h : w.arg <;> simp [h]

@[simp] theorem argOf_none (s : State) : (argOf none).run s = .error (.ends (.fault .memOutAbsent)) s := rfl

theorem argOf_value {x : Option Word} {w : Word} {v : Int} (hx : x = some w) (hv : w.arg = some v) (s : State) :
    (argOf x).run s = .ok v s := by
  subst hx; simp [hv]

theorem argOf_absent {x : Option Word} {w : Word} (hx : x = some w) (hv : w.arg = none) (s : State) :
    (argOf x).run s = .error (.ends (.fault (.argumentAbsent w))) s := by
  subst hx; simp [hv]

@[simp] theorem memOutArg_run (s : State) : memOutArg.run s = (argOf s.memOut).run s := rfl

/-! ### Latches -/

@[simp] theorem latchAR_pc (s : State) : (latchAddressRegister .pc).run s = .ok () { s with ar := some s.pc } := rfl

theorem latchAR_mem (s : State) :
    (latchAddressRegister .mem).run s = match (argOf s.memOut).run s with
      | .ok v t => .ok () { t with ar := some v }
      | .error e t => .error e t := by
  simp only [latchAddressRegister, latchValue, EStateM.run_bind, memOutArg_run]
  cases (argOf s.memOut).run s <;> rfl

theorem latchACC_mem (s : State) :
    (latchAccumulator .mem).run s = match (argOf s.memOut).run s with
      | .ok v t => .ok () { t with acc := some v }
      | .error e t => .error e t := by
  simp only [latchAccumulator, latchValue, EStateM.run_bind, memOutArg_run]
  cases (argOf s.memOut).run s <;> rfl

theorem latchACC_alu {s : State} {v : Int} (h : s.alu.out = some v) :
    (latchAccumulator .alu).run s = .ok () { s with acc := some v } := by
  simp [latchAccumulator, latchValue, readAluOut, h]

theorem jumpToArg_run (s : State) :
    jumpToArg.run s = match (argOf s.memOut).run s with
      | .ok v t => .ok () { t with pc := v }
      | .error e t => .error e t := by
  simp only [jumpToArg, EStateM.run_bind, memOutArg_run]
  cases (argOf s.memOut).run s <;> rfl

/-! ### The ALU -/

@[simp] theorem selectLeft_run (v : Int) (en : Bool) (s : State) :
    (selectLeft v en).run s = .ok () { s with alu := { s.alu with left := some (if en then v else 0) } } := rfl

@[simp] theorem selectRight_run (v : Int) (en : Bool) (s : State) :
    (selectRight v en).run s = .ok () { s with alu := { s.alu with right := some (if en then v else 0) } } := rfl

/-- `compute` with both operands selected: the divide-by-zero check, then the commit. -/
theorem compute_run (op : AluOp) {s : State} {l r : Int} (hl : s.alu.left = some l) (hr : s.alu.right = some r) :
    (compute op).run s =
      if op.divides = true ∧ l = 0 then .error (.ends (.fault (.divideByZero op r))) s
      else .ok () { s with alu := s.alu.commit op (aluResult op r l) } := by
  simp only [compute, readAluLeft, readAluRight, EStateM.run_bind, EStateM.run_get, hl, hr, EStateM.run_pure,
    Bool.and_eq_true, beq_iff_eq]
  split <;> rfl

/-- With both operands selected, `compute` fails in one way only, and then changes nothing (spec/40_alu.md R110). -/
theorem compute_error (op : AluOp) (s : State) {e : Stop} {t : State} (hl : s.alu.left.isSome = true)
    (hr : s.alu.right.isSome = true) (h : (compute op).run s = .error e t) :
    ∃ r, e = .ends (.fault (.divideByZero op r)) ∧ t = s := by
  obtain ⟨l, hl⟩ := Option.isSome_iff_exists.mp hl
  obtain ⟨r, hr⟩ := Option.isSome_iff_exists.mp hr
  rw [compute_run op hl hr] at h
  split at h
  · cases h; exact ⟨r, rfl, rfl⟩
  · cases h

/-! ### Memory access -/

/-- A read delivers or ends the run, never both. -/
theorem delivered_eq_none_iff (a : Int) (mem : Memory) (input : List Nat) :
    delivered a mem input = none ↔ ∃ c, readEnd a input = some c := by
  unfold delivered readEnd
  by_cases h1 : a = Config.inputPort
  · subst h1; cases input <;> simp
  · by_cases h2 : a = Config.outputPort
    · subst h2; simp [config_inputPort_val, config_outputPort_val]
    · by_cases h3 : 0 ≤ a ∧ a < Config.inputPort <;> simp [h1, h2, h3]

/-! The address map of spec/20_memory.md R51, region by region. -/

theorem delivered_cell {a : Int} {mem : Memory} {input : List Nat} (h0 : 0 ≤ a) (h1 : a < Config.inputPort) :
    delivered a mem input = some (mem.read a.toNat, input) := by
  unfold delivered
  rw [if_neg (by omega), if_pos ⟨h0, h1⟩]

theorem delivered_input {a : Int} {mem : Memory} {c : Nat} {rest : List Nat} (h : a = Config.inputPort) :
    delivered a mem (c :: rest) = some (Word.data c, rest) := by
  unfold delivered
  rw [if_pos h]

theorem readEnd_exhausted {a : Int} (h : a = Config.inputPort) : readEnd a [] = some .inputExhausted := by
  unfold readEnd
  rw [if_pos h, if_pos rfl]

theorem readEnd_outputPort {a : Int} {input : List Nat} (h : a = Config.outputPort) :
    readEnd a input = some (.fault (.illegalPortAccess .read a)) := by
  have := config_inputPort_val
  have := config_outputPort_val
  unfold readEnd
  rw [if_neg (by omega), if_pos h]

theorem readEnd_outside {a : Int} {input : List Nat} (h : a < 0 ∨ Config.memSize ≤ a) :
    readEnd a input = some (.fault (.addressOutOfRange a)) := by
  have := config_inputPort_val
  have := config_outputPort_val
  have : Config.memSize = 2048 := rfl
  unfold readEnd
  rw [if_neg (by omega), if_neg (by omega), if_neg (by omega)]

theorem writeEnd_cell {a v : Int} (h0 : 0 ≤ a) (h1 : a < Config.inputPort) : writeEnd a v = none := by
  have := config_inputPort_val
  have := config_outputPort_val
  unfold writeEnd
  rw [if_neg (by omega), if_neg (by omega), if_pos ⟨h0, h1⟩]

theorem writeEnd_char {a v : Int} (h : a = Config.outputPort) (h0 : 0 ≤ v) (h1 : v ≤ Config.charMax) :
    writeEnd a v = none := by
  unfold writeEnd
  rw [if_pos h, if_pos ⟨h0, h1⟩]

theorem writeEnd_unrepresentable {a v : Int} (h : a = Config.outputPort) (hv : v < 0 ∨ Config.charMax < v) :
    writeEnd a v = some (.fault (.outputUnrepresentable v)) := by
  unfold writeEnd
  rw [if_pos h, if_neg (by omega)]

theorem writeEnd_inputPort {a v : Int} (h : a = Config.inputPort) :
    writeEnd a v = some (.fault (.illegalPortAccess .write a)) := by
  have := config_inputPort_val
  have := config_outputPort_val
  unfold writeEnd
  rw [if_neg (by omega), if_pos h]

theorem writeEnd_outside {a v : Int} (h : a < 0 ∨ Config.memSize ≤ a) :
    writeEnd a v = some (.fault (.addressOutOfRange a)) := by
  have := config_inputPort_val
  have := config_outputPort_val
  have : Config.memSize = 2048 := rfl
  unfold writeEnd
  rw [if_neg (by omega), if_neg (by omega), if_neg (by omega)]

/-- `MemRead` at an address that delivers. -/
theorem memRead_delivers {s : State} {a : Int} {w : Word} {rest : List Nat} (ha : s.ar = some a)
    (hd : delivered a s.mem s.input = some (w, rest)) :
    memRead.run s = .ok () { s with memOut := some w, input := rest } := by
  simp only [memRead, readAR, EStateM.run_bind, EStateM.run_get, ha, EStateM.run_pure]
  unfold delivered at hd
  split at hd
  · rename_i h
    simp only [h, if_true]
    split at hd
    · cases hd
    · rename_i c r hin
      simp only [Option.some.injEq, Prod.mk.injEq] at hd
      obtain ⟨rfl, rfl⟩ := hd
      simp [hin]
  · rename_i h1
    split at hd
    · rename_i h
      simp only [Option.some.injEq, Prod.mk.injEq] at hd
      obtain ⟨rfl, rfl⟩ := hd
      have h2 : a ≠ Config.outputPort := by
        have := h.2; simp only [config_inputPort_val, config_outputPort_val] at *; omega
      simp [h1, h2, h]
    · cases hd

/-- `MemRead` at an address that ends the run: nothing changes. -/
theorem memRead_ends {s : State} {a : Int} {c : Terminal} (ha : s.ar = some a) (he : readEnd a s.input = some c) :
    memRead.run s = .error (.ends c) s := by
  simp only [memRead, readAR, EStateM.run_bind, EStateM.run_get, ha, EStateM.run_pure]
  unfold readEnd at he
  split at he
  · rename_i h
    split at he
    · rename_i hin; cases he; simp [h, hin]
    · cases he
  · rename_i h1
    split at he
    · rename_i h2; cases he; rw [if_neg h1, if_pos h2]; rfl
    · rename_i h2
      split at he
      · cases he
      · rename_i h3; cases he; simp [h1, h2, h3]

/-- `memRead_delivers` as a rewrite at a state whose fields are known. -/
theorem memRead_at {a : Int} {mem : Memory} {input : List Nat} {w : Word} {rest : List Nat}
    (hd : delivered a mem input = some (w, rest)) (s : State) (ha : s.ar = some a) (hm : s.mem = mem)
    (hi : s.input = input) : memRead.run s = .ok () { s with memOut := some w, input := rest } := by
  subst hm hi
  exact memRead_delivers ha hd

/-- `memRead_ends` as a rewrite at a state whose fields are known. -/
theorem memRead_ends_at {a : Int} {input : List Nat} {c : Terminal} (he : readEnd a input = some c) (s : State)
    (ha : s.ar = some a) (hi : s.input = input) : memRead.run s = .error (.ends c) s := by
  subst hi
  exact memRead_ends ha he

/-- Everything `MemRead` can do from a written AR. -/
theorem memRead_cases {s : State} {a : Int} (ha : s.ar = some a) :
    (∃ w rest, delivered a s.mem s.input = some (w, rest) ∧
      memRead.run s = .ok () { s with memOut := some w, input := rest }) ∨
    (∃ c, delivered a s.mem s.input = none ∧ readEnd a s.input = some c ∧ memRead.run s = .error (.ends c) s) := by
  cases h : delivered a s.mem s.input with
  | some x => exact .inl ⟨x.1, x.2, rfl, memRead_delivers ha h⟩
  | none =>
    obtain ⟨c, hc⟩ := (delivered_eq_none_iff ..).mp h
    exact .inr ⟨c, rfl, hc, memRead_ends ha hc⟩

/-- What is delivered is a data word popped from the input, or the word of a cell with the input untouched. -/
theorem delivered_cases {a : Int} {mem : Memory} {input : List Nat} {w : Word} {rest : List Nat}
    (h : delivered a mem input = some (w, rest)) :
    (∃ c, a = Config.inputPort ∧ input = c :: rest ∧ w = Word.data c) ∨
    (0 ≤ a ∧ a < Config.inputPort ∧ w = mem.read a.toNat ∧ rest = input) := by
  unfold delivered at h
  split at h
  · rename_i ha
    split at h
    · cases h
    · rename_i c r
      simp only [Option.some.injEq, Prod.mk.injEq] at h
      exact .inl ⟨c, ha, by rw [h.2], h.1.symm⟩
  · split at h
    · rename_i ha
      simp only [Option.some.injEq, Prod.mk.injEq] at h
      exact .inr ⟨ha.1, ha.2, h.1.symm, h.2.symm⟩
    · cases h

/-- The state after a `MemWrite` of `v` at `a` that completes. -/
def written (s : State) (a v : Int) : State :=
  { s with
    output := if a = Config.outputPort then s.output ++ [v.toNat] else s.output
    mem := if a = Config.outputPort then s.mem else s.mem.write a.toNat (Word.data v) }

/-- Everything `MemWrite` can do from a written AR and ALU.out: it ends the run with nothing changed, or it writes. -/
theorem memWrite_run {s : State} {a v : Int} (ha : s.ar = some a) (hv : s.alu.out = some v) :
    memWrite.run s = match writeEnd a v with
      | some c => .error (.ends c) s
      | none => .ok () (written s a v) := by
  simp only [memWrite, readAR, readAluOut, EStateM.run_bind, EStateM.run_get, ha, hv, EStateM.run_pure, writeEnd, written]
  by_cases h1 : a = Config.outputPort
  · by_cases h2 : 0 ≤ v ∧ v ≤ Config.charMax <;> simp [h1, h2]
  · by_cases h2 : a = Config.inputPort
    · simp [h2, config_inputPort_val, config_outputPort_val]
    · by_cases h3 : 0 ≤ a ∧ a < Config.inputPort <;> simp [h1, h2, h3]

/-- A write at a cell completes only in the general-purpose range. -/
theorem writeEnd_none_range {a v : Int} (h : writeEnd a v = none) (ho : a ≠ Config.outputPort) :
    0 ≤ a ∧ a < Config.inputPort := by
  unfold writeEnd at h
  rw [if_neg ho] at h
  split at h
  · cases h
  · split at h
    · assumption
    · cases h

/-- A write at the output port completes only with a character code. -/
theorem writeEnd_none_char {v : Int} (h : writeEnd Config.outputPort v = none) : 0 ≤ v ∧ v ≤ Config.charMax := by
  unfold writeEnd at h
  rw [if_pos rfl] at h
  split at h
  · assumption
  · cases h

end Sys2Proof.Machine
end

