-- ==== Sys2Proof/Laws/Phases.lean ====
section
/-! SUPPORT. What phases 1 to 3 and the execute steps do, each said once. -/

namespace Sys2Proof.Machine

/-! ### Phase 1 -/

/-- A fetch at a PC that delivers. -/
theorem fetch_delivers {s : State} {w : Word} {rest : List Nat} (h : delivered s.pc s.mem s.input = some (w, rest)) :
    fetch.run s = .ok w { s with
      ar := some s.pc, memOut := some w, cur := some w, input := rest, ticks := s.ticks + 1 } := by
  simp only [fetch, EStateM.run_bind, latchAR_pc]
  simp only [memRead_at h]
  rfl

/-- A fetch at a PC that ends the run: only AR was written. -/
theorem fetch_ends {s : State} {c : Terminal} (h : readEnd s.pc s.input = some c) :
    fetch.run s = .error (.ends c) { s with ar := some s.pc } := by
  simp only [fetch, EStateM.run_bind, latchAR_pc]
  simp only [memRead_ends_at h]

/-- Everything a fetch can do. -/
theorem fetch_cases (s : State) :
    (∃ w rest, delivered s.pc s.mem s.input = some (w, rest) ∧ fetch.run s = .ok w { s with
      ar := some s.pc, memOut := some w, cur := some w, input := rest, ticks := s.ticks + 1 }) ∨
    (∃ c, readEnd s.pc s.input = some c ∧ fetch.run s = .error (.ends c) { s with ar := some s.pc }) := by
  cases h : delivered s.pc s.mem s.input with
  | some x => exact .inl ⟨x.1, x.2, rfl, fetch_delivers h⟩
  | none =>
    obtain ⟨c, hc⟩ := (delivered_eq_none_iff ..).mp h
    exact .inr ⟨c, hc, fetch_ends hc⟩

@[simp] theorem present_run (w : Word) (s : State) :
    (present w).run s = .ok () { s with ar := some s.pc, memOut := some w, cur := some w } := rfl

/-- After a fetch, presenting the word again changes nothing (log entry 13). -/
theorem present_fetched {s t : State} {w : Word} (h : fetch.run s = .ok w t) : (present w).run t = .ok () t := by
  rcases fetch_cases s with ⟨x, rest, _, hf⟩ | ⟨c, _, hf⟩ <;> rw [hf] at h <;> cases h
  rfl

/-! ### Phases 2 and 3 with an addressing mode -/

/-- Phases 2 and 3 of an instruction whose operand is read. -/
theorem operandPhases_reads {i : Instr} {m : Mode} {n : Int} {s : State} {o : OperandRead}
    (hn : (encode i).arg = some n) (h : operandRead (encode i) m n s = some o) :
    (operandPhases i m).run s = .ok () (afterPhases i m o s) := by
  cases m with
  | imm =>
    cases h
    rfl
  | dir =>
    simp only [operandRead, Option.map_eq_some_iff] at h
    obtain ⟨⟨w, rest⟩, hd, rfl⟩ := h
    simp only [operandPhases, resolve, operandFetch, EStateM.run_bind, present_run, latchAR_mem, argOf_some, hn]
    simp only [memRead_at hd]
    rfl
  | ind =>
    simp only [operandRead, Option.bind_eq_some_iff, Option.map_eq_some_iff] at h
    obtain ⟨⟨p, rest⟩, hp, q, hq, ⟨w, rest'⟩, hd, rfl⟩ := h
    simp only [operandPhases, resolve, operandFetch, EStateM.run_bind, present_run, latchAR_mem, argOf_some, hn]
    simp only [memRead_at hp, tick_run, argOf_value rfl hq, memRead_at hd]
    rfl

/-- The state in which phases 2 and 3 of `i` end the run: only AR, MEM_OUT, CUR, IN and TICKS can have changed. -/
def endedInPhases (i : Instr) (a : Int) (w : Word) (rest : List Nat) (k : Nat) (s : State) : State :=
  { s with ar := some a, memOut := some w, cur := some (encode i), input := rest, ticks := s.ticks + k }

/-- The ways phases 2 and 3 end the run: a read that fails, or a pointer word without an argument. -/
inductive PhaseEnd (i : Instr) (n : Int) (s : State) : Mode → Terminal → State → Prop
  | dirRead (c : Terminal) (h : readEnd n s.input = some c) :
      PhaseEnd i n s .dir c (endedInPhases i n (encode i) s.input 0 s)
  | indRead (c : Terminal) (h : readEnd n s.input = some c) :
      PhaseEnd i n s .ind c (endedInPhases i n (encode i) s.input 0 s)
  | indArg (w : Word) (rest : List Nat) (h : delivered n s.mem s.input = some (w, rest)) (hw : w.arg = none) :
      PhaseEnd i n s .ind (.fault (.argumentAbsent w)) (endedInPhases i n w rest 1 s)
  | indSecond (w : Word) (rest : List Nat) (q : Int) (c : Terminal) (h : delivered n s.mem s.input = some (w, rest))
      (hw : w.arg = some q) (hc : readEnd q rest = some c) :
      PhaseEnd i n s .ind c (endedInPhases i q w rest 1 s)

theorem operandPhases_of_phaseEnd {i : Instr} {m : Mode} {n : Int} {s t : State} {c : Terminal}
    (hn : (encode i).arg = some n) (h : PhaseEnd i n s m c t) : (operandPhases i m).run s = .error (.ends c) t := by
  cases h with
  | dirRead _ h =>
    simp only [operandPhases, resolve, operandFetch, EStateM.run_bind, present_run, latchAR_mem, argOf_some, hn]
    simp only [memRead_ends_at h]
    rfl
  | indRead _ h =>
    simp only [operandPhases, resolve, operandFetch, EStateM.run_bind, present_run, latchAR_mem, argOf_some, hn]
    simp only [memRead_ends_at h]
    rfl
  | indArg w rest h hw =>
    simp only [operandPhases, resolve, operandFetch, EStateM.run_bind, present_run, latchAR_mem, argOf_some, hn]
    simp only [memRead_at h, tick_run, argOf_absent rfl hw]
    rfl
  | indSecond w rest q _ h hw hc =>
    simp only [operandPhases, resolve, operandFetch, EStateM.run_bind, present_run, latchAR_mem, argOf_some, hn]
    simp only [memRead_at h, tick_run, argOf_value rfl hw, memRead_ends_at hc]
    rfl

/-- Everything phases 2 and 3 can do. -/
theorem operandPhases_cases (i : Instr) (m : Mode) (n : Int) (s : State) (hn : (encode i).arg = some n) :
    (∃ o, operandRead (encode i) m n s = some o ∧ (operandPhases i m).run s = .ok () (afterPhases i m o s)) ∨
    (∃ c t, PhaseEnd i n s m c t ∧ (operandPhases i m).run s = .error (.ends c) t) := by
  cases h : operandRead (encode i) m n s with
  | some o => exact .inl ⟨o, rfl, operandPhases_reads hn h⟩
  | none =>
    suffices hs : ∃ c t, PhaseEnd i n s m c t by
      obtain ⟨c, t, hp⟩ := hs
      exact .inr ⟨c, t, hp, operandPhases_of_phaseEnd hn hp⟩
    cases m with
    | imm => cases h
    | dir =>
      simp only [operandRead, Option.map_eq_none_iff] at h
      obtain ⟨c, hc⟩ := (delivered_eq_none_iff ..).mp h
      exact ⟨_, _, .dirRead c hc⟩
    | ind =>
      simp only [operandRead] at h
      cases hd : delivered n s.mem s.input with
      | none =>
        obtain ⟨c, hc⟩ := (delivered_eq_none_iff ..).mp hd
        exact ⟨_, _, .indRead c hc⟩
      | some p =>
        obtain ⟨w, rest⟩ := p
        cases hw : w.arg with
        | none => exact ⟨_, _, .indArg w rest hd hw⟩
        | some q =>
          simp only [hd, hw, Option.bind_some, Option.map_eq_none_iff] at h
          obtain ⟨c, hc⟩ := (delivered_eq_none_iff ..).mp h
          exact ⟨_, _, .indSecond w rest q c hd hw hc⟩

/-! ### Phases 2 and 3 without an addressing mode -/

/-- Without a mode, phases 2 and 3 at a general-purpose PC complete. -/
theorem nonePhases_run {i : Instr} {s : State} (h0 : 0 ≤ s.pc) (h1 : s.pc < Config.inputPort) :
    (nonePhases i).run s = .ok () (afterNone i s) := by
  have hd : delivered s.pc s.mem s.input = some (s.mem.read s.pc.toNat, s.input) := by
    unfold delivered
    rw [if_neg (by omega), if_pos ⟨h0, h1⟩]
  simp only [nonePhases, EStateM.run_bind, present_run, operandFetchNone, afterNone]
  cases Config.operandFetchOnNone with
  | false => rfl
  | true =>
    simp only [if_true, EStateM.run_bind]
    simp only [memRead_at hd]
    rfl

/-- Everything phases 2 and 3 can do without a mode, at any PC. -/
theorem nonePhases_cases (i : Instr) (s : State) :
    (∃ w rest k, (rest = s.input ∨ ∃ c, s.input = c :: rest) ∧
      (w = encode i ∨ ∃ r, delivered s.pc s.mem s.input = some (w, r)) ∧
      (nonePhases i).run s = .ok () (endedInPhases i s.pc w rest k s)) ∨
    (∃ c, readEnd s.pc s.input = some c ∧
      (nonePhases i).run s = .error (.ends c) (endedInPhases i s.pc (encode i) s.input 0 s)) := by
  simp only [nonePhases, EStateM.run_bind, present_run, operandFetchNone]
  cases Config.operandFetchOnNone with
  | false => exact .inl ⟨encode i, s.input, 0, .inl rfl, .inl rfl, rfl⟩
  | true =>
    simp only [if_true, EStateM.run_bind]
    cases hd : delivered s.pc s.mem s.input with
    | some x =>
      obtain ⟨w, rest⟩ := x
      refine .inl ⟨w, rest, 1, ?_, .inr ⟨rest, rfl⟩, ?_⟩
      · rcases delivered_cases hd with ⟨c, _, hi, _⟩ | ⟨_, _, _, hr⟩
        · exact .inr ⟨c, hi⟩
        · exact .inl hr
      · simp only [memRead_at hd]; rfl
    | none =>
      obtain ⟨c, hc⟩ := (delivered_eq_none_iff ..).mp hd
      refine .inr ⟨c, hc, ?_⟩
      simp only [memRead_ends_at hc]; rfl

/-! ### Phase 4 -/

theorem selectOperands_run {t : State} {w : Word} {v a : Int} (hw : t.memOut = some w) (hv : w.arg = some v)
    (ha : t.acc = some a) :
    selectOperands.run t = .ok () { t with alu := { t.alu with left := some v, right := some a } } := by
  simp [selectOperands, hw, hv, readACC_run, ha]

theorem selectOperands_noArg {t : State} {w : Word} (hw : t.memOut = some w) (hv : w.arg = none) :
    selectOperands.run t = .error (.ends (.fault (.argumentAbsent w))) t := by
  simp [selectOperands, hw, hv]

theorem selectOperands_noAcc {t : State} {w : Word} {v : Int} (hw : t.memOut = some w) (hv : w.arg = some v)
    (ha : t.acc = none) :
    selectOperands.run t = .error (.ends (.fault (.uninitialisedRead .acc)))
      { t with alu := { t.alu with left := some v } } := by
  simp [selectOperands, hw, hv, readACC_run, ha]

/-- The execute step of ADD, SUB, MUL, DIV and MOD where the operation does not fail. -/
theorem accumulate_run {op : AluOp} {t : State} {w : Word} {v a : Int} (hop : op ≠ .cmp) (hw : t.memOut = some w)
    (hv : w.arg = some v) (ha : t.acc = some a) (hz : op.divides = true → v ≠ 0) :
    (accumulate op).run t = .ok () { t with
      acc := some (aluResult op a v)
      alu := Alu.computed v a (aluResult op a v)
      pc := t.pc + 1
      ticks := t.ticks + 1 } := by
  simp only [accumulate, EStateM.run_bind, selectOperands_run hw hv ha]
  rw [compute_run op rfl rfl, if_neg (fun h => hz h.1 h.2)]
  simp only []
  rw [latchACC_alu (v := aluResult op a v) (by simp [hop])]
  simp [Alu.commit, Alu.computed, hop, zeroFlag, negFlag]

/-- The execute step of DIV and MOD by zero. -/
theorem accumulate_divZero {op : AluOp} {t : State} {w : Word} {a : Int} (hw : t.memOut = some w)
    (hv : w.arg = some 0) (ha : t.acc = some a) (hop : op.divides = true) :
    (accumulate op).run t = .error (.ends (.fault (.divideByZero op a)))
      { t with alu := { t.alu with left := some 0, right := some a } } := by
  simp only [accumulate, EStateM.run_bind, selectOperands_run hw hv ha]
  rw [compute_run op rfl rfl, if_pos ⟨hop, rfl⟩]

theorem accumulate_noArg {op : AluOp} {t : State} {w : Word} (hw : t.memOut = some w) (hv : w.arg = none) :
    (accumulate op).run t = .error (.ends (.fault (.argumentAbsent w))) t := by
  simp only [accumulate, EStateM.run_bind, selectOperands_noArg hw hv]

theorem accumulate_noAcc {op : AluOp} {t : State} {w : Word} {v : Int} (hw : t.memOut = some w) (hv : w.arg = some v)
    (ha : t.acc = none) :
    (accumulate op).run t = .error (.ends (.fault (.uninitialisedRead .acc)))
      { t with alu := { t.alu with left := some v } } := by
  simp only [accumulate, EStateM.run_bind, selectOperands_noAcc hw hv ha]

/-- The execute step of CMP. -/
theorem compareAcc_run {t : State} {w : Word} {v a : Int} (hw : t.memOut = some w) (hv : w.arg = some v)
    (ha : t.acc = some a) :
    compareAcc.run t = .ok () { t with
      alu := ⟨some v, some a, t.alu.out, some (decide (a - v = 0)), some (decide (a - v < 0))⟩
      pc := t.pc + 1
      ticks := t.ticks + 1 } := by
  simp only [compareAcc, EStateM.run_bind, selectOperands_run hw hv ha]
  rw [compute_run .cmp rfl rfl, if_neg (fun h => Bool.noConfusion h.1)]
  rfl

theorem compareAcc_noArg {t : State} {w : Word} (hw : t.memOut = some w) (hv : w.arg = none) :
    compareAcc.run t = .error (.ends (.fault (.argumentAbsent w))) t := by
  simp only [compareAcc, EStateM.run_bind, selectOperands_noArg hw hv]

theorem compareAcc_noAcc {t : State} {w : Word} {v : Int} (hw : t.memOut = some w) (hv : w.arg = some v)
    (ha : t.acc = none) :
    compareAcc.run t = .error (.ends (.fault (.uninitialisedRead .acc)))
      { t with alu := { t.alu with left := some v } } := by
  simp only [compareAcc, EStateM.run_bind, selectOperands_noAcc hw hv ha]

/-- The execute step of LD. -/
theorem loadAcc_run {t : State} {w : Word} (hw : t.memOut = some w) :
    loadAcc.run t = match w.arg with
      | some v => .ok () { t with acc := some v, pc := t.pc + 1, ticks := t.ticks + 1 }
      | none => .error (.ends (.fault (.argumentAbsent w))) t := by
  simp only [loadAcc, EStateM.run_bind, latchACC_mem]
  cases hv : w.arg with
  | some v => rw [argOf_value hw hv]; rfl
  | none => rw [argOf_absent hw hv]

/-- The state in which ST's `MemWrite` runs (spec/43_load_store.md R171). -/
def beforeWrite (t : State) (v a : Int) : State := { t with ar := some v, alu := Alu.computed 0 a a }

/-- The execute step of ST up to and including the write. -/
theorem storeAcc_run {t : State} {w : Word} {v a : Int} (hw : t.memOut = some w) (hv : w.arg = some v)
    (ha : t.acc = some a) :
    storeAcc.run t = match writeEnd v a with
      | some c => .error (.ends c) (beforeWrite t v a)
      | none => .ok () { written (beforeWrite t v a) v a with pc := t.pc + 1, ticks := t.ticks + 1 } := by
  have hc : Alu.commit { t.alu with left := some 0, right := some a } .add (a + 0) = Alu.computed 0 a a := by
    rw [Int.add_zero]; rfl
  simp only [storeAcc, EStateM.run_bind, latchAR_mem, argOf_value hw hv, memOutArg_run, selectLeft_run, readACC_run, ha,
    selectRight_run, if_true]
  rw [compute_run .add rfl rfl, if_neg (fun h => Bool.noConfusion h.1)]
  simp only [aluResult, Bool.false_eq_true, if_false, hc]
  rw [memWrite_run (a := v) (v := a) rfl rfl]
  cases writeEnd v a with
  | some c => simp only [beforeWrite, ha]
  | none => simp only [beforeWrite, written, ha, advancePC_run, tick_run]

theorem storeAcc_noArg {t : State} {w : Word} (hw : t.memOut = some w) (hv : w.arg = none) :
    storeAcc.run t = .error (.ends (.fault (.argumentAbsent w))) t := by
  simp only [storeAcc, EStateM.run_bind, latchAR_mem, argOf_absent hw hv]

theorem storeAcc_noAcc {t : State} {w : Word} {v : Int} (hw : t.memOut = some w) (hv : w.arg = some v)
    (ha : t.acc = none) :
    storeAcc.run t = .error (.ends (.fault (.uninitialisedRead .acc)))
      { t with ar := some v, alu := { t.alu with left := some 0 } } := by
  simp only [storeAcc, EStateM.run_bind, latchAR_mem, argOf_value hw hv, memOutArg_run, selectLeft_run, readACC_run, ha]
  rfl

/-- The execute step of JMP. -/
theorem jump_run {t : State} {w : Word} (hw : t.memOut = some w) :
    jump.run t = match w.arg with
      | some v => .ok () { t with pc := v, ticks := t.ticks + 1 }
      | none => .error (.ends (.fault (.argumentAbsent w))) t := by
  simp only [jump, EStateM.run_bind, jumpToArg_run]
  cases hv : w.arg with
  | some v => rw [argOf_value hw hv]; rfl
  | none => rw [argOf_absent hw hv]

/-- The execute step of JZ. -/
theorem branchZero_run {t : State} {w : Word} (hw : t.memOut = some w) :
    branchZero.run t = match t.alu.zero with
      | none => .error (.ends (.fault (.uninitialisedRead .zero))) t
      | some false => .ok () { t with pc := t.pc + 1, ticks := t.ticks + 1 }
      | some true =>
        match w.arg with
        | some v => .ok () { t with pc := v, ticks := t.ticks + 1 }
        | none => .error (.ends (.fault (.argumentAbsent w))) t := by
  simp only [branchZero, EStateM.run_bind, EStateM.run_get]
  cases t.alu.zero with
  | none => rfl
  | some z =>
    cases z with
    | false => rfl
    | true =>
      simp only [EStateM.run_bind, jumpToArg_run]
      cases hv : w.arg with
      | some v => rw [argOf_value hw hv]; rfl
      | none => rw [argOf_absent hw hv]

@[simp] theorem dataExecuted_run (v : Int) (t : State) :
    (dataExecuted v).run t = .error (.ends (.fault (.varExecuted t.pc v))) t := rfl

/-! ### The whole of `exec` -/

/-- An operand instruction: phases 2 and 3, then the execute step, then the count. -/
theorem runOperand_reads {i : Instr} {m : Mode} {n : Int} {s : State} {o : OperandRead} (body : Signal Unit)
    (hn : (encode i).arg = some n) (h : operandRead (encode i) m n s = some o) :
    runOperand i m body s = match body.run (afterPhases i m o s) with
      | .ok _ t => .next { t with instrs := t.instrs + 1 }
      | .error e t => finish (.error e t : EStateM.Result Stop State Unit) := by
  simp only [runOperand, EStateM.run_bind, operandPhases_reads hn h]
  cases body.run (afterPhases i m o s) <;> rfl

/-- An operand instruction whose phases 2 and 3 end the run. -/
theorem runOperand_phaseEnd {i : Instr} {m : Mode} {n : Int} {s t : State} {c : Terminal} (body : Signal Unit)
    (hn : (encode i).arg = some n) (h : PhaseEnd i n s m c t) : runOperand i m body s = .next (t.endRun c) := by
  simp only [runOperand, EStateM.run_bind, operandPhases_of_phaseEnd hn h]
  rfl

end Sys2Proof.Machine
end

