-- ==== Sys2Proof/Tests/Slice0.lean ====
section
/-! SUPPORT. The model's own tests: the checks of R86, one word of each constructor written out from spec/30_encoding.md
R88, at most two one-step tests an instruction from the vectors of spec/95_test_vectors.md, and for each statement with
hypotheses a state and operands that meet them, clause by clause and at the boundary values. -/

open Sys2Proof Sys2Proof.Machine Sys2Proof.Statements

namespace Sys2Proof.Tests

/-- A machine about to run a cycle: an image from address 0, a PC, an accumulator and the input left. -/
def machine (image : List Word) (pc : Int) (acc : Option Int) (input : List Nat) : State :=
  { State.reset with mem := Memory.placeFrom 0 image, pc := pc, acc := acc, input := input }

/-- One step answers a next state with this property. -/
def stepShows (s : State) (p : State → Bool) : Bool :=
  match step s with
  | .next t => p t
  | .fault _ | .refused _ => false

/-- The zero flag, as an earlier instruction left it. -/
def withZero (s : State) (z : Option Bool) : State := { s with alu := { s.alu with zero := z, neg := z.map fun _ => false } }

/-- Words in the notation of spec/30_encoding.md R91: `OP #n`, `OP n`, `OP [n]`. -/
def imm (op : Opcode) (n : Int) : Word := ⟨op, some n, some .imm⟩
def dir (op : Opcode) (n : Int) : Word := ⟨op, some n, some .dir⟩
def ind (op : Opcode) (n : Int) : Word := ⟨op, some n, some .ind⟩
def hlt : Word := ⟨.hlt, none, none⟩
def var (n : Int) : Word := ⟨.var, some n, none⟩

/-! ### The checks of R86 (spec/95_test_vectors.md E-1 to E-6) -/

theorem test_wf_operandArgGiven : Word.operandArgGiven ⟨.add, none, some .imm⟩ = false ∧
    Word.wf ⟨.add, none, some .imm⟩ = false ∧ decode ⟨.add, none, some .imm⟩ = .error .operandArgGiven := by decide

theorem test_wf_operandModeGiven : Word.operandModeGiven ⟨.ld, some 3, none⟩ = false ∧
    Word.wf ⟨.ld, some 3, none⟩ = false ∧ decode ⟨.ld, some 3, none⟩ = .error .operandModeGiven := by decide

theorem test_wf_noModeOnHlt : Word.noModeOnHlt ⟨.hlt, none, some .dir⟩ = false ∧
    Word.wf ⟨.hlt, none, some .dir⟩ = false ∧ decode ⟨.hlt, none, some .dir⟩ = .error .noModeOnHlt := by decide

theorem test_wf_haltArgumentAccepted : Word.wf ⟨.hlt, some 9, none⟩ = true := by decide

theorem test_wf_dataShape : Word.dataShape ⟨.var, some 1, some .imm⟩ = false ∧ Word.dataShape ⟨.var, none, none⟩ = false ∧
    Word.wf ⟨.var, some 1, some .imm⟩ = false ∧ decode ⟨.var, some 1, some .imm⟩ = .error .dataShape := by decide

/-- E-6: an image may be at most INPUT_PORT words long. -/
theorem test_image_length (n : Nat) : imageWf (List.replicate n (var 0)) = decide (n ≤ 2046) := by
  have h : (List.replicate n (var 0)).all Word.wf = true := by
    rw [List.all_eq_true]
    intro w hw
    rw [List.eq_of_mem_replicate hw]
    rfl
  rw [imageWf, h, List.length_replicate]
  rfl

theorem test_image_too_long : imageWf (List.replicate 2047 (var 0)) = false := (test_image_length 2047).trans (by decide)

/-! ### Decoding, one word written out for each constructor (spec/30_encoding.md R88) -/

theorem test_decode_add : decode ⟨.add, some 10, some .imm⟩ = .ok (.add .imm 10) := rfl
theorem test_decode_sub : decode ⟨.sub, some 1, some .dir⟩ = .ok (.sub .dir 1) := rfl
theorem test_decode_mul : decode ⟨.mul, some (-4), some .ind⟩ = .ok (.mul .ind (-4)) := rfl
theorem test_decode_div : decode ⟨.div, some 2, some .imm⟩ = .ok (.div .imm 2) := rfl
theorem test_decode_mod : decode ⟨.mod, some 3, some .dir⟩ = .ok (.mod .dir 3) := rfl
theorem test_decode_cmp : decode ⟨.cmp, some 9, some .imm⟩ = .ok (.cmp .imm 9) := rfl
theorem test_decode_ld : decode ⟨.ld, some 2046, some .ind⟩ = .ok (.ld .ind 2046) := rfl
theorem test_decode_st : decode ⟨.st, some 0, some .dir⟩ = .ok (.st .dir 0) := rfl
theorem test_decode_jmp : decode ⟨.jmp, some (-1), some .imm⟩ = .ok (.jmp .imm (-1)) := rfl
theorem test_decode_jz : decode ⟨.jz, some 4, some .ind⟩ = .ok (.jz .ind 4) := rfl
theorem test_decode_hlt : decode ⟨.hlt, none, none⟩ = .ok (.hlt none) := rfl
theorem test_decode_var : decode ⟨.var, some 77, none⟩ = .ok (.var 77) := rfl

/-! ### One step of each instruction; the names of the vectors of spec/95_test_vectors.md -/

/-- A-X-3: the operand cell is an instruction word and its argument is used. -/
theorem test_add_direct : stepShows (machine [imm .ld 5, dir .add 3, hlt, imm .add 9] 1 (some 5) [])
    (fun t => t.acc == some 14 && t.pc == 2 && t.ticks == 3 && t.instrs == 1 && t.ar == some 3) = true := by decide

/-- A-ADD-2. -/
theorem test_add_zero : stepShows (machine [imm .ld 5, imm .add (-5)] 1 (some 5) [])
    (fun t => t.acc == some 0 && t.alu == ⟨some (-5), some 5, some 0, some true, some false⟩) = true := by decide

/-- A-SUB-1. -/
theorem test_sub_negative : stepShows (machine [imm .ld 3, imm .sub 10] 1 (some 3) [])
    (fun t => t.acc == some (-7) && t.alu == ⟨some 10, some 3, some (-7), some false, some true⟩) = true := by decide

/-- A-MUL-3: no overflow. -/
theorem test_mul_large : stepShows (machine [imm .ld (2 ^ 70), imm .mul (2 ^ 70)] 1 (some (2 ^ 70)) [])
    (fun t => t.acc == some 1393796574908163946345982392040522594123776) = true := by decide

/-- A-DIV-3. -/
theorem test_div_floor : stepShows (machine [imm .ld 7, imm .div (-2)] 1 (some 7) [])
    (fun t => t.acc == some (-4) && t.alu.zero == some false && t.alu.neg == some true) = true := by decide

/-- A-DZ-1, the cycle of the DIV alone. -/
theorem test_div_zero : stepShows (machine [imm .ld 5, imm .div 0] 1 (some 5) [])
    (fun t => t.status == .ended (.fault (.divideByZero .div 5)) && t.pc == 1 && t.acc == some 5 && t.ticks == 1 &&
      t.alu == ⟨some 0, some 5, none, none, none⟩) = true := by decide

/-- A-MOD-3. -/
theorem test_mod_sign : stepShows (machine [imm .ld 7, imm .mod (-2)] 1 (some 7) [])
    (fun t => t.acc == some (-1) && t.alu.neg == some true) = true := by decide

/-- A-X-2, the cycle of the MOD alone. -/
theorem test_mod_zero : stepShows (machine [imm .ld 5, dir .mod 3, hlt, var 0] 1 (some 5) [])
    (fun t => t.status == .ended (.fault (.divideByZero .mod 5)) && t.ar == some 3 && t.ticks == 2) = true := by decide

/-- A-CMP-1. -/
theorem test_cmp_less : stepShows (machine [imm .ld 7, imm .cmp 9] 1 (some 7) [])
    (fun t => t.acc == some 7 && t.alu == ⟨some 9, some 7, none, some false, some true⟩ && t.pc == 2) = true := by decide

/-- LS-LD-4: the popped code is the address of the operand. -/
theorem test_ld_indirect_port : stepShows (machine [ind .ld 2046, hlt, hlt, var 42] 0 none [3])
    (fun t => t.acc == some 42 && t.input == [] && t.ticks == 4 && t.alu == Alu.reset) = true := by decide

/-- LS-F-5. -/
theorem test_ld_argument_absent : stepShows (machine [dir .ld 1, hlt] 0 none [])
    (fun t => t.status == .ended (.fault (.argumentAbsent hlt)) && t.ar == some 1 && t.ticks == 2 && t.pc == 0) = true := by
  decide

/-- LS-ST-3: ST overwrites its own cell, two levels down. -/
theorem test_st_indirect : stepShows (machine [imm .ld 3, ind .st 4, hlt, var 6, var 5, var 1] 1 (some 3) [])
    (fun t => t.mem.read 1 == var 3 && t.mem.read 5 == var 1 && t.alu == ⟨some 0, some 3, some 3, some false, some false⟩ &&
      t.ar == some 1 && t.pc == 2) = true := by decide

/-- LS-F-6: the ALU was written before the write failed. -/
theorem test_st_input_port : stepShows (machine [imm .ld 5, imm .st 2046] 1 (some 5) [])
    (fun t => t.status == .ended (.fault (.illegalPortAccess .write 2046)) && t.ar == some 2046 && t.alu.out == some 5 &&
      t.alu.zero == some false && t.ticks == 1 && t.instrs == 0) = true := by decide

/-- C-JMP-2. -/
theorem test_jmp_indirect : stepShows (machine [ind .jmp 3, hlt, hlt, var 4, var 1] 0 none [])
    (fun t => t.pc == 1 && t.ticks == 4 && t.instrs == 1) = true := by decide

/-- C-JZ-4, the cycle of the JZ alone. -/
theorem test_jz_taken : stepShows
    (withZero (machine [imm .ld 1, imm .sub 1, ind .jz 4, hlt, var 5, var 7] 2 (some 0) []) (some true))
    (fun t => t.pc == 7 && t.ticks == 4) = true := by decide

/-- C-JZ-6: the argument of an untaken JZ is not read. -/
theorem test_jz_untaken : stepShows
    (withZero (machine [imm .ld 2, imm .add 0, dir .jz 4, hlt, hlt] 2 (some 2) []) (some false))
    (fun t => t.pc == 3 && t.status == .running && t.instrs == 1) = true := by decide

/-- C-HLT-1, for either value of OPERAND_FETCH_ON_NONE. -/
theorem test_hlt : ∃ t, step (machine [hlt] 0 none []) = .next t ∧ t.status = .ended .halted ∧ t.pc = 0 ∧
    t.ar = some 0 ∧ t.instrs = 0 ∧ t.cycles = 1 := by
  refine ⟨State.endRun (afterNone (.hlt none) { machine [hlt] 0 none [] with
    ar := some 0, memOut := some hlt, cur := some hlt, ticks := 1, cycles := 1 }) .halted, ?_, rfl, rfl, rfl, rfl, rfl⟩
  show runNone _ _ _ = _
  simp only [runNone, EStateM.run_bind]
  rw [nonePhases_run (by decide) (by decide)]
  rfl

/-- C-VAR-1, for either value of OPERAND_FETCH_ON_NONE. -/
theorem test_var : ∃ t, step (machine [var 7] 0 none []) = .next t ∧
    t.status = .ended (.fault (.varExecuted 0 7)) ∧ t.pc = 0 ∧ t.instrs = 0 := by
  refine ⟨State.endRun (afterNone (.var 7) { machine [var 7] 0 none [] with
    ar := some 0, memOut := some (var 7), cur := some (var 7), ticks := 1, cycles := 1 })
    (.fault (.varExecuted 0 7)), ?_, rfl, rfl, rfl⟩
  show runNone _ _ _ = _
  simp only [runNone, EStateM.run_bind]
  rw [nonePhases_run (by decide) (by decide)]
  rfl

/-! ### Witnesses: states and operands that meet the hypotheses of the statements -/

/-- A machine in the middle of a run, with every register written: it met LD, ADD and ST before. Cell 3 holds a pointer
to cell 4, cell 4 holds 5, cell 5 a word without an argument, cell 6 the output port's address. -/
def midRun : State :=
  { machine [dir .add 4, imm .st 2047, dir .jz 4, var 4, var 5, hlt, var 2047] 0 (some 65) [66, 67] with
    ar := some 2047, alu := Alu.computed 0 65 65, memOut := some (imm .st 2047), cur := some (imm .st 2047),
    output := [65], ticks := 7, instrs := 3, cycles := 3 }

/-- The same with other values in the registers a cycle writes before it reads them, and other counters. -/
def midRunHidden : State :=
  { midRun with ar := none, alu := ⟨none, some 1, none, some false, some true⟩, memOut := none, cur := none, ticks := 0, instrs := 9 }

/-- `midRun` with AR and ALU.out as a memory access reads them. -/
def accessing (a v : Int) (input : List Nat) : State :=
  { midRun with ar := some a, alu := { midRun.alu with out := some v }, input := input }

theorem witness_DecodeEncodeInverse : decode (dir .ld 3) = .ok (.ld .dir 3) := rfl

theorem witness_DecodeRefusesExactlyIllFormed :
    decode ⟨.jz, some 1, none⟩ = .error .operandModeGiven ∧ decode ⟨.st, none, some .ind⟩ = .error .operandArgGiven ∧
    decode ⟨.hlt, some 1, some .imm⟩ = .error .noModeOnHlt ∧ decode ⟨.var, none, none⟩ = .error .dataShape :=
  ⟨rfl, rfl, rfl, rfl⟩

theorem witness_LoadPlacesImage_longest :
    (∀ w ∈ List.replicate 2046 (var 1), checksHold w) ∧ (List.replicate 2046 (var 1)).length ≤ Config.inputPort := by
  refine ⟨fun w hw => ?_, by rw [List.length_replicate]; decide⟩
  rw [List.eq_of_mem_replicate hw]
  unfold checksHold
  decide

theorem witness_LoadPlacesImage_tooLong :
    ¬((∀ w ∈ List.replicate 2047 (var 1), checksHold w) ∧ (List.replicate 2047 (var 1)).length ≤ Config.inputPort) := by
  rw [List.length_replicate]
  exact fun h => absurd h.2 (by decide)

theorem witness_LoadPlacesImage_illFormed :
    ¬((∀ w ∈ [imm .ld 1, ⟨.hlt, none, some .dir⟩], checksHold w) ∧ 2 ≤ Config.inputPort) := by
  intro h
  have := h.1 ⟨.hlt, none, some .dir⟩ (by simp)
  exact absurd (this.2.1 rfl) (by decide)

theorem witness_CanonicalMemoryIsExtensional :
    let m := (Memory.write [] 2045 (var 7)).write 0 hlt
    let m' := ((Memory.write [] 0 hlt).write 1 (var 3)).write 1 (var 0) |>.write 2045 (var 7)
    m.wf = true ∧ m'.wf = true ∧ ∀ a : Nat, m.read a = m'.read a :=
  ⟨by decide, by decide, fun _ => rfl⟩

theorem witness_FloorDivisionAndModulo : ((-2 : Int) ≠ 0 ∧ (-2 : Int) < 0) ∧ ((1 : Int) ≠ 0 ∧ (0 : Int) < 1) := by decide

theorem witness_ComputeWritesResultAndFlags :
    let s := { midRun with alu := ⟨some 0, some 5, none, none, none⟩ }
    s.alu.left = some 0 ∧ s.alu.right = some 5 ∧ ((AluOp.div = .div ∨ AluOp.div = .mod) ∧ (0 : Int) = 0) ∧
      ¬((AluOp.mul = .div ∨ AluOp.mul = .mod) ∧ (0 : Int) = 0) := by decide

/-- The five clauses of MemRead and MemWrite, at both ends of each range. -/
theorem witness_MemReadByRegion :
    ((accessing 2046 0 [66]).ar = some 2046 ∧ (accessing 2046 0 [66]).input = 66 :: []) ∧
    ((accessing 2046 0 []).ar = some 2046 ∧ (accessing 2046 0 []).input = []) ∧
    (accessing 2047 0 []).ar = some 2047 ∧
    ((accessing 0 0 []).ar = some 0 ∧ (0 : Int) ≤ 0 ∧ (0 : Int) < 2046) ∧
    ((accessing 2045 0 []).ar = some 2045 ∧ (0 : Int) ≤ 2045 ∧ (2045 : Int) < 2046) ∧
    ((accessing (-1) 0 []).ar = some (-1) ∧ (-1 : Int) < 0) ∧
    ((accessing 2048 0 []).ar = some 2048 ∧ (2048 : Int) ≤ 2048) := by decide

theorem witness_MemWriteByRegion :
    ((accessing 2047 0 []).ar = some 2047 ∧ (accessing 2047 0 []).alu.out = some 0 ∧ (0 : Int) ≤ 0 ∧ (0 : Int) ≤ 0x10FFFF) ∧
    ((accessing 2047 0x10FFFF []).alu.out = some 0x10FFFF ∧ (0 : Int) ≤ 0x10FFFF) ∧
    ((accessing 2047 (-1) []).alu.out = some (-1) ∧ (-1 : Int) < 0) ∧
    ((accessing 2047 0x110000 []).alu.out = some 0x110000 ∧ (0x10FFFF : Int) < 0x110000) ∧
    ((accessing 2046 5 []).ar = some 2046 ∧ (accessing 2046 5 []).alu.out = some 5) ∧
    ((accessing 0 (-5) []).ar = some 0 ∧ (accessing 0 (-5) []).alu.out = some (-5)) ∧
    ((accessing 2045 5 []).ar = some 2045 ∧ (2045 : Int) < 2046) ∧
    ((accessing (-1) 5 []).ar = some (-1) ∧ (accessing 2048 5 []).ar = some 2048) := by decide

theorem witness_LatchSignalsFromEachSource :
    midRun.alu.out = some 65 ∧
    (midRun.memOut = some (imm .st 2047) ∧ (imm .st 2047).arg = some 2047) ∧
    (({ midRun with memOut := some hlt } : State).memOut = some hlt ∧ hlt.arg = none) ∧
    midRunHidden.memOut = none := by decide

theorem witness_FetchByRegion :
    (machine [hlt] 0 none []).pc = 0 ∧ (machine [] 2045 none []).pc = 2045 ∧
    ((machine [] 2046 none [66]).pc = 2046 ∧ (machine [] 2046 none [66]).input = 66 :: []) ∧
    ((machine [] 2046 none []).pc = 2046 ∧ (machine [] 2046 none []).input = []) ∧
    (machine [] 2047 none []).pc = 2047 ∧
    ((machine [] (-1) none []).pc < 0 ∧ 2048 ≤ (machine [] 2048 none []).pc) := by decide

/-- An accumulator instruction: an operand and an accumulator by each addressing mode, an operand word without an
argument, and an accumulator never written. -/
def OperandThenAccMet (mk : Mode → Int → Instr) : Prop :=
  (∃ o, operandRead (encode (mk .imm 9)) .imm 9 midRun = some o ∧ o.word.arg = some 9 ∧ midRun.acc = some 65) ∧
  (∃ o, operandRead (encode (mk .dir 4)) .dir 4 midRun = some o ∧ o.word.arg = some 5 ∧ midRun.acc = some 65) ∧
  (∃ o, operandRead (encode (mk .ind 3)) .ind 3 midRun = some o ∧ o.word.arg = some 5 ∧ midRun.acc = some 65) ∧
  (∃ o, operandRead (encode (mk .dir 5)) .dir 5 midRun = some o ∧ o.word.arg = none) ∧
  (∃ o, operandRead (encode (mk .imm 9)) .imm 9 (machine [] 0 none []) = some o ∧ o.word.arg = some 9 ∧
    (machine [] 0 none []).acc = none)

theorem operandThenAccMet (mk : Mode → Int → Instr) (h : ∀ m n, (encode (mk m n)).arg = some n) : OperandThenAccMet mk :=
  ⟨⟨_, rfl, h _ _, rfl⟩, ⟨_, rfl, rfl, rfl⟩, ⟨_, rfl, rfl, rfl⟩, ⟨_, rfl, rfl⟩, ⟨_, rfl, h _ _, rfl⟩⟩

theorem witness_AddSubMulExecute : OperandThenAccMet .add ∧ OperandThenAccMet .sub ∧ OperandThenAccMet .mul :=
  ⟨operandThenAccMet _ fun _ _ => rfl, operandThenAccMet _ fun _ _ => rfl, operandThenAccMet _ fun _ _ => rfl⟩

theorem witness_DivModExecute : OperandThenAccMet .div ∧ OperandThenAccMet .mod :=
  ⟨operandThenAccMet _ fun _ _ => rfl, operandThenAccMet _ fun _ _ => rfl⟩

theorem witness_CmpExecutes : OperandThenAccMet .cmp := operandThenAccMet _ fun _ _ => rfl
theorem witness_LdExecutes : OperandThenAccMet .ld := operandThenAccMet _ fun _ _ => rfl
theorem witness_JmpExecutes : OperandThenAccMet .jmp := operandThenAccMet _ fun _ _ => rfl

theorem witness_DivModExecute_zero :
    (∃ o, operandRead (encode (.div .imm 0)) .imm 0 midRun = some o ∧ o.word.arg = some 0 ∧ midRun.acc = some 65) ∧
    (∃ o, operandRead (encode (.mod .dir 7)) .dir 7 midRun = some o ∧ o.word.arg = some 0 ∧ midRun.acc = some 65) :=
  ⟨⟨_, rfl, rfl, rfl⟩, ⟨_, rfl, rfl, rfl⟩⟩

/-- ST: the shared clauses, then each region of the address at its ends and each end of the character range. -/
theorem witness_StExecutes : OperandThenAccMet .st := operandThenAccMet _ fun _ _ => rfl

theorem witness_StExecutes_address (v : Int) :
    ∃ o, operandRead (encode (.st .imm v)) .imm v midRun = some o ∧ o.word.arg = some v ∧ midRun.acc = some 65 :=
  ⟨_, rfl, rfl, rfl⟩

theorem witness_StExecutes_regions :
    ((0 : Int) ≤ 0 ∧ (2045 : Int) < 2046) ∧ ((2047 : Int) = 2047 ∧ (0 : Int) ≤ 0 ∧ (0x10FFFF : Int) ≤ 0x10FFFF) ∧
    ((-1 : Int) < 0 ∧ (0x10FFFF : Int) < 0x110000) ∧ ((-1 : Int) < 0 ∧ (2048 : Int) ≤ 2048) ∧
    (∀ a ∈ [(0 : Int), 0x10FFFF, -1, 0x110000], ({ midRun with acc := some a } : State).acc = some a) := by decide

theorem witness_JzExecutes :
    (∃ o, operandRead (encode (.jz .imm 8)) .imm 8 (withZero midRun (some true)) = some o ∧ o.word.arg = some 8 ∧
      (withZero midRun (some true)).alu.zero = some true) ∧
    (∃ o, operandRead (encode (.jz .dir 5)) .dir 5 (withZero midRun (some true)) = some o ∧ o.word.arg = none ∧
      (withZero midRun (some true)).alu.zero = some true) ∧
    (∃ o, operandRead (encode (.jz .dir 5)) .dir 5 midRun = some o ∧ midRun.alu.zero = some false) ∧
    (∃ o, operandRead (encode (.jz .imm 8)) .imm 8 (withZero midRun none) = some o ∧
      (withZero midRun none).alu.zero = none) :=
  ⟨⟨_, rfl, rfl, rfl⟩, ⟨_, rfl, rfl, rfl⟩, ⟨_, rfl, rfl⟩, ⟨_, rfl, rfl⟩⟩

theorem witness_HltEndsRun : generalPurpose (machine [hlt] 0 none []).pc ∧ generalPurpose (machine [] 2045 none []).pc :=
  ⟨⟨by decide, by decide⟩, ⟨by decide, by decide⟩⟩

theorem witness_VarEndsRunWithFault : generalPurpose midRun.pc := ⟨by decide, by decide⟩

/-- The failing reads of phases 2 and 3, for every operand instruction (LdExecutes, JmpExecutes and JzExecutes too). -/
theorem witness_OperandReadsFailFirst :
    operandOf (.ld .dir 2046) = some (.dir, 2046) ∧
    (readEnd 2046 [] = some .inputExhausted ∧ readEnd 2047 [] = some (.fault (.illegalPortAccess .read 2047)) ∧
      readEnd (-1) [] = some (.fault (.addressOutOfRange (-1))) ∧
      readEnd 2048 [] = some (.fault (.addressOutOfRange 2048))) ∧
    (delivered 5 midRun.mem midRun.input = some (hlt, [66, 67]) ∧ hlt.arg = none) ∧
    (delivered 6 midRun.mem midRun.input = some (var 2047, [66, 67]) ∧ (var 2047).arg = some 2047 ∧
      readEnd 2047 [66, 67] = some (.fault (.illegalPortAccess .read 2047))) ∧
    (delivered 2046 midRun.mem [2047] = some (var 2047, []) ∧ readEnd 2047 [] ≠ none) := by decide

theorem witness_StoreIsOneLevelDeeper :
    midRun.acc = some 65 ∧ generalPurpose 0 ∧ generalPurpose 2045 ∧ generalPurpose 3 ∧
    ((midRun.mem.read 3).arg = some 4 ∧ generalPurpose 4) ∧ ((midRun.mem.read 4).arg = some 5 ∧ generalPurpose 5) :=
  ⟨rfl, ⟨by decide, by decide⟩, ⟨by decide, by decide⟩, ⟨by decide, by decide⟩, ⟨rfl, ⟨by decide, by decide⟩⟩,
    ⟨rfl, ⟨by decide, by decide⟩⟩⟩

theorem witness_ArithmeticFrame :
    (∃ t, exec (.add .dir 4) midRun = .next t) ∧ (∃ t, exec (.sub .imm 4) midRun = .next t) ∧
    (∃ t, exec (.mul .ind 3) midRun = .next t) ∧ (∃ t, exec (.div .dir 4) midRun = .next t) ∧
    (∃ t, exec (.mod .imm 0) midRun = .next t) :=
  ⟨⟨_, rfl⟩, ⟨_, rfl⟩, ⟨_, rfl⟩, ⟨_, rfl⟩, ⟨_, rfl⟩⟩

theorem witness_CmpFrame : ∃ t, exec (.cmp .dir 4) midRun = .next t ∧ t.status = .running := ⟨_, rfl, rfl⟩

theorem witness_LdFrame : ∃ t, exec (.ld .dir 2046) midRun = .next t ∧ t.input = [67] := ⟨_, rfl, rfl⟩

theorem witness_StFrame :
    (∃ t, exec (.st .imm 2045) midRun = .next t ∧ storeAddress .imm 2045 midRun = some 2045) ∧
    (∃ t, exec (.st .dir 6) midRun = .next t ∧ storeAddress .dir 6 midRun = some 2047 ∧ t.output = [65, 65]) :=
  ⟨⟨_, rfl, rfl⟩, ⟨_, rfl, rfl, rfl⟩⟩

theorem witness_ControlFrame : (∃ t, exec (.jmp .dir 3) midRun = .next t) ∧ (∃ t, exec (.jz .imm 8) midRun = .next t) :=
  ⟨⟨_, rfl⟩, ⟨_, rfl⟩⟩

theorem witness_ControlFrame_none :
    (∃ t, exec (.hlt none) midRun = .next t) ∧ (∃ t, exec (.var 7) midRun = .next t) := by
  refine ⟨⟨(afterNone (.hlt none) midRun).endRun .halted, ?_⟩,
    ⟨(afterNone (.var 7) midRun).endRun (.fault (.varExecuted 0 7)), ?_⟩⟩
  all_goals
    simp only [exec, execHlt, execVar, runNone, EStateM.run_bind]
    rw [nonePhases_run (by decide) (by decide)]
    rfl

theorem midRun_runsCycle : runsCycle midRun := ⟨rfl, by decide⟩

theorem witness_StepRunsFetchedInstruction :
    (runsCycle midRun ∧ generalPurpose midRun.pc ∧ decode (midRun.mem.read midRun.pc.toNat) = .ok (.add .dir 4)) ∧
    (runsCycle (machine [] 2045 none []) ∧ generalPurpose (machine [] 2045 none []).pc ∧
      decode ((machine [] 2045 none []).mem.read (machine [] 2045 none []).pc.toNat) = .ok (.var 0)) :=
  ⟨⟨midRun_runsCycle, ⟨by decide, by decide⟩, rfl⟩, ⟨⟨rfl, by decide⟩, ⟨by decide, by decide⟩, rfl⟩⟩

theorem witness_TerminatedIsAbsorbing : (midRun.endRun .halted).status ≠ .running := by decide

theorem witness_CapStopsBeforeCycle :
    let s := { midRun with cycles := 1000000 }
    s.status = .running ∧ s.cycles = 1000000 := ⟨rfl, rfl⟩

theorem witness_RunningOffTheEnd :
    (runsCycle (machine [] 2045 none []) ∧ generalPurpose 2045 ∧ (machine [] 2045 none []).mem.read 2045 = Word.data 0) ∧
    (runsCycle (machine [] 2046 none [66, 67]) ∧ (machine [] 2046 none [66, 67]).input = 66 :: 67 :: []) ∧
    (runsCycle (machine [] 2046 none [66]) ∧ (machine [] 2046 none [66]).input = [66]) ∧
    (runsCycle (machine [] 2046 none []) ∧ (machine [] 2046 none []).input = []) ∧
    (runsCycle (machine [] 2047 none []) ∧ (machine [] 2047 none []).pc = 2047) ∧
    (runsCycle (machine [] 2048 none []) ∧ 2048 ≤ (machine [] 2048 none []).pc) ∧
    (runsCycle (machine [] (-1) none []) ∧ (machine [] (-1) none []).pc < 0) :=
  ⟨⟨⟨rfl, by decide⟩, ⟨by decide, by decide⟩, rfl⟩, ⟨⟨rfl, by decide⟩, rfl⟩, ⟨⟨rfl, by decide⟩, rfl⟩,
    ⟨⟨rfl, by decide⟩, rfl⟩, ⟨⟨rfl, by decide⟩, rfl⟩, ⟨⟨rfl, by decide⟩, by decide⟩, ⟨⟨rfl, by decide⟩, by decide⟩⟩

/-- IMM, DIR and IND cycles that complete (with `midRun_runsCycle`); `test_hlt` is the case without a mode. -/
theorem witness_CycleTicksByMode :
    (∃ t, step midRun = .next t ∧ operandOf (.add .dir 4) = some (.dir, 4) ∧ t.status = .running) ∧
    (∃ t, step { midRun with pc := 1 } = .next t ∧ operandOf (.st .imm 2047) = some (.imm, 2047) ∧ t.status = .running) ∧
    (∃ t, step (machine [ind .ld 1, var 0] 0 none []) = .next t ∧ operandOf (.ld .ind 1) = some (.ind, 1) ∧
      t.status = .running) :=
  ⟨⟨_, rfl, rfl, rfl⟩, ⟨_, rfl, rfl, rfl⟩, ⟨_, rfl, rfl, rfl⟩⟩

theorem witness_InstrsCountsCompletedCycles :
    runsCycle midRun ∧ (∃ t, step midRun = .next t ∧ t.status = .running) ∧
    (∃ t, step (machine [dir .ld 2047] 0 none []) = .next t ∧ t.status ≠ .running) :=
  ⟨midRun_runsCycle, ⟨_, rfl, rfl⟩, ⟨_, rfl, by decide⟩⟩

theorem witness_EndedCycleKeepsPC :
    (machine [dir .ld 2047] 0 none []).status = .running ∧
    ∃ t, step (machine [dir .ld 2047] 0 none []) = .next t ∧ t.status ≠ .running := ⟨rfl, ⟨_, rfl, by decide⟩⟩

theorem witness_InvariantAtLoad : ∃ s, State.load [imm .ld 5, dir .st 0, hlt] 0 [66] = .next s := ⟨_, rfl⟩

/-- A state in the middle of a run with the invariant; with `witness_step` the hypotheses of StepKeepsInvariant,
StepNeverStopsOutsideStatus and EveryRunEnds. -/
theorem witness_Inv : midRun.Inv where
  memCanonical := by decide
  wordsWellFormed := by decide
  memOutWellFormed := fun _ h => by cases h; rfl
  curWellFormed := fun _ h => by cases h; rfl
  withinCap := by decide
  counters := rfl
  outputCodes := by decide
  flagsTogether := rfl
  outHasFlags := fun _ => rfl

/-- A step that answers a next state: StepKeepsInvariant, StreamsAndCountersAreMonotone, CountersDoNotInterfere. -/
theorem witness_step : ∃ t, step midRun = .next t ∧ t.acc = some 70 := ⟨_, rfl, rfl⟩

/-- StepStoresOnlyData where a cell changes. -/
theorem witness_StepStoresOnlyData : ∃ t, step (machine [imm .st 2045] 0 (some 65) []) = .next t ∧
    t.mem.read 2045 = Word.data 65 := ⟨_, rfl, rfl⟩

theorem witness_WritersOfAccAndFlags :
    runsCycle midRun ∧ generalPurpose midRun.pc ∧ decode (midRun.mem.read midRun.pc.toNat) = .ok (.add .dir 4) ∧
    (∃ t, step midRun = .next t ∧ t.acc ≠ midRun.acc) ∧
    (∃ t, step midRunHidden = .next t ∧ t.alu.neg ≠ midRunHidden.alu.neg) :=
  ⟨midRun_runsCycle, ⟨by decide, by decide⟩, rfl, ⟨_, rfl, by decide⟩, ⟨_, rfl, by decide⟩⟩

theorem witness_StoredCellFaultsWhenFetched : ∃ t, exec (.st .imm 2045) midRun = .next t ∧ midRun.status = .running ∧
    t.status = .running ∧ midRun.acc = some 65 ∧ storeAddress .imm 2045 midRun = some ((2045 : Nat) : Int) ∧
    midRun.cycles ≠ Config.iterationCap := ⟨_, rfl, rfl, rfl, rfl, rfl, by decide⟩

theorem witness_HiddenStateDoesNotInterfere : midRun.view = midRunHidden.view ∧ midRun ≠ midRunHidden := by decide

end Sys2Proof.Tests
end

section
/-! PROOFS of the family Scope: a store at the address it computes (O12, O19), and the invariant of the machine (O41).
The store's statements are read off the laws `memWrite_run` and `storeAcc_run`. The invariant is carried through a cycle
by a small logic of signals: `Leads x Q` says of a signal what it can do to a state inside a cycle, `Leads.bind` composes,
and each instruction's execute step is the composition of its signals. -/

namespace Sys2Proof.Machine

/-! ### A completed write, by region -/

/-- A write below the ports replaces one cell by a data word and nothing else (spec/20_memory.md R60). -/
theorem written_cell (s : State) {a : Int} (v : Int) (h : a < Config.inputPort) :
    written s a v = { s with mem := s.mem.write a.toNat (Word.data v) } := by
  have hport : a ≠ Config.outputPort := by
    simp only [config_inputPort_val, config_outputPort_val] at *; omega
  simp only [written, if_neg hport]

/-- A write at the output port appends one element and nothing else (spec/20_memory.md R58). -/
theorem written_outputPort (s : State) (v : Int) :
    written s Config.outputPort v = { s with output := s.output ++ [v.toNat] } := by
  simp only [written, if_true]

theorem memWrite_completes {s : State} {a v : Int} (ha : s.ar = some a) (hv : s.alu.out = some v)
    (hw : writeEnd a v = none) : memWrite.run s = .ok () (written s a v) := by
  rw [memWrite_run ha hv, hw]

theorem memWrite_ends {s : State} {a v : Int} {c : Terminal} (ha : s.ar = some a) (hv : s.alu.out = some v)
    (hw : writeEnd a v = some c) : memWrite.run s = .error (.ends c) s := by
  rw [memWrite_run ha hv, hw]

/-- Settles O12, by the regions of `writeEnd`: each clause is one of them. -/
theorem memWriteByRegion : Obligations.MemWriteByRegion := by
  intro s a v ha hv
  refine ⟨?outputPort, ?unrepresentable, ?inputPort, ?cell, ?outside⟩
  case outputPort =>
    rintro rfl h0 h1
    rw [memWrite_completes ha hv (writeEnd_char rfl h0 h1)]
    exact congrArg _ (written_outputPort s v)
  case unrepresentable =>
    rintro rfl hrange
    exact memWrite_ends ha hv (writeEnd_unrepresentable rfl hrange)
  case inputPort =>
    rintro rfl
    exact memWrite_ends ha hv (writeEnd_inputPort rfl)
  case cell =>
    intro h0 h1
    refine ⟨s.mem.write a.toNat (Word.data v), ?_, fun b => Memory.read_write ..⟩
    rw [memWrite_completes ha hv (writeEnd_cell h0 h1), written_cell s v h1]
  case outside =>
    intro hout
    exact memWrite_ends ha hv (writeEnd_outside hout)

/-! ### ST -/

/-- ST is the store's execute step after phases 2 and 3 (spec/41_sequencer.md R132). -/
theorem exec_st (m : Mode) (n : Int) (s : State) : exec (.st m n) s = runOperand (.st m n) m storeAcc s := rfl

section St
variable {m : Mode} {n : Int} {s : State} {o : OperandRead} (ho : operandRead (encode (.st m n)) m n s = some o)
include ho

theorem exec_st_noArg (hv : o.word.arg = none) :
    exec (.st m n) s = .next ((afterPhases (.st m n) m o s).endRun (.fault (.argumentAbsent o.word))) := by
  rw [exec_st, runOperand_reads storeAcc rfl ho, storeAcc_noArg (afterPhases_memOut ..) hv]
  rfl

theorem exec_st_noAcc {v : Int} (hv : o.word.arg = some v) (ha : s.acc = none) :
    exec (.st m n) s = .next (State.endRun
      { afterPhases (.st m n) m o s with ar := some v, alu := { s.alu with left := some 0 } }
      (.fault (.uninitialisedRead .acc))) := by
  rw [exec_st, runOperand_reads storeAcc rfl ho, storeAcc_noAcc (afterPhases_memOut ..) hv ha]
  rfl

/-- A store that completes. -/
theorem exec_st_writes {v a : Int} (hv : o.word.arg = some v) (ha : s.acc = some a) (hw : writeEnd v a = none) :
    exec (.st m n) s = .next (State.completed
      { written (beforeWrite (afterPhases (.st m n) m o s) v a) v a with pc := s.pc + 1 }) := by
  rw [exec_st, runOperand_reads storeAcc rfl ho, storeAcc_run (afterPhases_memOut ..) hv ha, hw]
  rfl

/-- A store whose write ends the run, with AR and the ALU written (spec/60_exceptions.md R212). -/
theorem exec_st_writeEnd {v a : Int} {c : Terminal} (hv : o.word.arg = some v) (ha : s.acc = some a)
    (hw : writeEnd v a = some c) :
    exec (.st m n) s = .next ((beforeWrite (afterPhases (.st m n) m o s) v a).endRun c) := by
  rw [exec_st, runOperand_reads storeAcc rfl ho, storeAcc_run (afterPhases_memOut ..) hv ha, hw]
  rfl

end St

/-- Settles O19, by the regions of the address the operand value gives. -/
theorem stExecutes : Obligations.StExecutes := by
  intro m n s o ho
  refine ⟨exec_st_noArg ho, fun v hv ha => exec_st_noAcc ho hv ha, fun v a hv ha => ⟨?cell, ?outputPort, ?ends⟩⟩
  case cell =>
    intro h0 h1
    refine ⟨s.mem.write v.toNat (Word.data a), fun b => Memory.read_write .., ?_⟩
    rw [exec_st_writes ho hv ha (writeEnd_cell h0 h1), written_cell _ a h1]
    rfl
  case outputPort =>
    rintro rfl h0 h1
    rw [exec_st_writes ho hv ha (writeEnd_char rfl h0 h1)]
    rfl
  case ends =>
    rintro k (⟨rfl, hrange, rfl⟩ | ⟨rfl, rfl⟩ | ⟨hout, rfl⟩)
    · exact exec_st_writeEnd ho hv ha (writeEnd_unrepresentable rfl hrange)
    · exact exec_st_writeEnd ho hv ha (writeEnd_inputPort rfl)
    · exact exec_st_writeEnd ho hv ha (writeEnd_outside hout)

/-! ### The invariant inside a cycle -/

/-- The invariant between two signals of a cycle: as `State.Inv`, but the cycle is begun (CYCLES counts it, R222) and
not yet completed (INSTRS does not, R134). -/
structure State.InCycle (s : State) : Prop where
  memCanonical : s.mem.wf = true
  wordsWellFormed : ∀ c ∈ s.mem, c.2.wf = true
  memOutWellFormed : ∀ w, s.memOut = some w → w.wf = true
  curWellFormed : ∀ w, s.cur = some w → w.wf = true
  withinCap : s.cycles ≤ Config.iterationCap
  running : s.status = .running
  begun : s.cycles = s.instrs + 1
  outputCodes : ∀ c ∈ s.output, c ≤ Config.charMax
  flagsTogether : s.alu.zero.isSome = s.alu.neg.isSome
  outHasFlags : s.alu.out.isSome = true → s.alu.zero.isSome = true

/-- The driver begins a cycle (spec/60_exceptions.md R222). -/
theorem State.Inv.begin_cycle {s : State} (h : s.Inv) (hrun : s.status = .running)
    (hcap : s.cycles ≠ Config.iterationCap) : State.InCycle { s with cycles := s.cycles + 1 } :=
  { h with
    withinCap := by have := h.withinCap; show s.cycles + 1 ≤ _; omega
    running := hrun
    begun := by
      have hcount := h.counters
      rw [State.countersAgree, hrun] at hcount
      exact congrArg (· + 1) hcount }

/-- A cycle that ends the run, by anything but the cap, was begun and is not counted (spec/41_sequencer.md R134). -/
theorem State.InCycle.endRun {s : State} (h : s.InCycle) {c : Terminal} (hc : c ≠ .capReached) : (s.endRun c).Inv :=
  { h with
    counters := by
      cases c with
      | capReached => exact absurd rfl hc
      | halted => exact h.begun
      | inputExhausted => exact h.begun
      | fault k => exact h.begun }

/-- The end of a completed execute step (spec/41_sequencer.md R134). -/
theorem State.InCycle.retire {s : State} (h : s.InCycle) : State.Inv { s with instrs := s.instrs + 1 } :=
  { h with
    counters := by
      rw [State.countersAgree, show ({ s with instrs := s.instrs + 1 } : State).status = .running from h.running]
      exact h.begun }

/-- The cap is reached before a cycle begins, and changes STATUS only (spec/60_exceptions.md R222). -/
theorem State.Inv.capReached {s : State} (h : s.Inv) (hrun : s.status = .running)
    (hcap : s.cycles = Config.iterationCap) : (s.endRun .capReached).Inv :=
  { h with
    counters := by
      have hcount := h.counters
      rw [State.countersAgree, hrun] at hcount
      exact ⟨hcount, hcap⟩ }

/-! ### What a signal leads to from inside a cycle -/

/-- From inside a cycle, `x` completes in a state with `Q`, or it ends the run inside the cycle by a terminal condition
other than the cap's. A signal stuck on an unwritten latch gives no next state (log entry 4): nothing is asked there. -/
def Leads {α : Type} (x : Signal α) (Q : State → Prop) : Prop :=
  ∀ s : State, s.InCycle →
    match x.run s with
    | .ok _ t => Q t
    | .error (.ends c) t => c ≠ .capReached ∧ t.InCycle
    | .error (.stuck _) _ => True

/-- `x` keeps the invariant inside the cycle. -/
abbrev Keeps {α : Type} (x : Signal α) : Prop := Leads x State.InCycle

theorem Leads.bind {α β : Type} {x : Signal α} {f : α → Signal β} {Q : State → Prop} (hx : Keeps x)
    (hf : ∀ a, Leads (f a) Q) : Leads (x >>= f) Q := by
  intro s hs
  have hstep := hx s hs
  rw [EStateM.run_bind]
  cases hrun : x.run s with
  | ok a t =>
    rw [hrun] at hstep
    exact hf a t hstep
  | error e t =>
    rw [hrun] at hstep
    cases e with
    | ends c => exact hstep
    | stuck f => trivial

theorem Leads.pure {α : Type} (a : α) : Keeps (pure a : Signal α) := fun _ hs => hs

theorem Leads.stop {α : Type} {c : Terminal} (hc : c ≠ .capReached) (Q : State → Prop) :
    Leads (stop c : Signal α) Q := fun _ hs => ⟨hc, hs⟩

theorem Leads.raise {α : Type} (k : FaultKind) (Q : State → Prop) : Leads (raise k : Signal α) Q :=
  Leads.stop Terminal.noConfusion Q

theorem Leads.stuckOn {α : Type} (r : Latch) (Q : State → Prop) : Leads (stuckOn r : Signal α) Q :=
  fun _ _ => trivial

theorem Leads.modify {f : State → State} {Q : State → Prop} (h : ∀ s : State, s.InCycle → Q (f s)) :
    Leads (modify f : Signal Unit) Q := h

/-- A signal that looks at the state first: it is enough to say what it does from the state it saw. -/
theorem Leads.get_bind {α : Type} {f : State → Signal α} {Q : State → Prop}
    (h : ∀ s : State, s.InCycle → Leads (f s) Q) : Leads (get >>= f) Q :=
  fun s hs => h s hs s hs

/-- A whole sequence that leads to the invariant answers only next states that have it. -/
theorem Leads.finish_inv {α : Type} {x : Signal α} {s t : State} (hx : Leads x State.Inv) (hs : s.InCycle)
    (h : finish (x.run s) = .next t) : t.Inv := by
  have hend := hx s hs
  cases hrun : x.run s with
  | ok a u =>
    rw [hrun] at hend h
    cases h
    exact hend
  | error e u =>
    rw [hrun] at hend h
    cases e with
    | ends c =>
      cases h
      exact hend.2.endRun hend.1
    | stuck f => cases h

/-! ### The signals, one by one -/

theorem tick_keeps : Keeps tick := Leads.modify fun _ hs => { hs with }
theorem advancePC_keeps : Keeps advancePC := Leads.modify fun _ hs => { hs with }
theorem selectLeft_keeps (v : Int) (en : Bool) : Keeps (selectLeft v en) := Leads.modify fun _ hs => { hs with }
theorem selectRight_keeps (v : Int) (en : Bool) : Keeps (selectRight v en) := Leads.modify fun _ hs => { hs with }

/-- The one signal that leaves the cycle: it counts it as completed. -/
theorem retire_leads : Leads retire State.Inv := Leads.modify fun _ hs => hs.retire

theorem readACC_keeps : Keeps readACC := Leads.get_bind fun s _ => by
  cases s.acc with
  | none => exact Leads.raise _ _
  | some a => exact Leads.pure a

theorem readAluOut_keeps : Keeps readAluOut := Leads.get_bind fun s _ => by
  cases s.alu.out with
  | none => exact Leads.stuckOn _ _
  | some v => exact Leads.pure v

theorem readAluLeft_keeps : Keeps readAluLeft := Leads.get_bind fun s _ => by
  cases s.alu.left with
  | none => exact Leads.stuckOn _ _
  | some v => exact Leads.pure v

theorem readAluRight_keeps : Keeps readAluRight := Leads.get_bind fun s _ => by
  cases s.alu.right with
  | none => exact Leads.stuckOn _ _
  | some v => exact Leads.pure v

theorem argOf_keeps (w : Option Word) : Keeps (argOf w) := by
  cases w with
  | none => exact Leads.raise _ _
  | some w =>
    intro s hs
    cases harg : w.arg with
    | none => rw [argOf_absent rfl harg]; exact ⟨Terminal.noConfusion, hs⟩
    | some n => rw [argOf_value rfl harg]; exact hs

theorem memOutArg_keeps : Keeps memOutArg := Leads.get_bind fun s _ => argOf_keeps s.memOut

theorem latchValue_keeps (src : LatchSource) : Keeps (latchValue src) := by
  cases src with
  | alu => exact readAluOut_keeps
  | pc => exact Leads.get_bind fun s _ => Leads.pure s.pc
  | mem => exact memOutArg_keeps

theorem latchAddressRegister_keeps (src : LatchSource) : Keeps (latchAddressRegister src) :=
  (latchValue_keeps src).bind fun _ => Leads.modify fun _ hs => { hs with }

theorem latchAccumulator_keeps (src : LatchSource) : Keeps (latchAccumulator src) :=
  (latchValue_keeps src).bind fun _ => Leads.modify fun _ hs => { hs with }

theorem jumpToArg_keeps : Keeps jumpToArg :=
  memOutArg_keeps.bind fun _ => Leads.modify fun _ hs => { hs with }

/-- `compute` writes both flags together, and ALU.out only with them (spec/40_alu.md R103). -/
theorem compute_keeps (op : AluOp) : Keeps (compute op) :=
  readAluRight_keeps.bind fun r => readAluLeft_keeps.bind fun l => by
    split
    · exact Leads.raise _ _
    · exact Leads.modify fun _ hs => { hs with flagsTogether := rfl, outHasFlags := fun _ => rfl }

/-! ### Memory access -/

theorem readEnd_ne_capReached {a : Int} {input : List Nat} {c : Terminal} (h : readEnd a input = some c) :
    c ≠ .capReached := by
  rintro rfl
  unfold readEnd at h
  split_ifs at h <;> cases h

theorem writeEnd_ne_capReached {a v : Int} {c : Terminal} (h : writeEnd a v = some c) : c ≠ .capReached := by
  rintro rfl
  unfold writeEnd at h
  split_ifs at h <;> cases h

/-- Every word a read delivers is well formed where memory's words are: a data word, or the word of a cell. -/
theorem delivered_wf {a : Int} {mem : Memory} {input rest : List Nat} {w : Word} (hm : ∀ c ∈ mem, c.2.wf = true)
    (h : delivered a mem input = some (w, rest)) : w.wf = true := by
  rcases delivered_cases h with ⟨c, _, _, rfl⟩ | ⟨_, _, rfl, _⟩
  · rfl
  · exact Memory.read_wf hm _

theorem memRead_keeps : Keeps memRead := by
  intro s hs
  cases har : s.ar with
  | none =>
    have hrun : memRead.run s = .error (.stuck (.unwrittenLatch .ar)) s := by simp [memRead, readAR, har]
    rw [hrun]
    trivial
  | some a =>
    rcases memRead_cases har with ⟨w, rest, hd, hrun⟩ | ⟨c, _, hc, hrun⟩ <;> rw [hrun]
    · exact { hs with memOutWellFormed := fun x hx => by cases hx; exact delivered_wf hs.wordsWellFormed hd }
    · exact ⟨readEnd_ne_capReached hc, hs⟩

/-- A write that completes keeps the invariant: below the ports it stores a data word, at the output port it appends a
character code. -/
theorem State.InCycle.written {s : State} (hs : s.InCycle) {a v : Int} (h : writeEnd a v = none) :
    (written s a v).InCycle := by
  by_cases hport : a = Config.outputPort
  · subst hport
    obtain ⟨h0, hmax⟩ := writeEnd_none_char h
    rw [written_outputPort]
    refine { hs with outputCodes := fun c hc => ?_ }
    rcases List.mem_append.mp hc with hc | hc
    · exact hs.outputCodes c hc
    · rw [List.mem_singleton.mp hc]; omega
  · obtain ⟨h0, hlt⟩ := writeEnd_none_range h hport
    rw [written_cell s v hlt]
    refine { hs with
      memCanonical := Memory.wf_write _ _ hs.memCanonical (by omega)
      wordsWellFormed := fun c hc => ?_ }
    rcases Memory.mem_write hc with hc | rfl
    · exact hs.wordsWellFormed c hc
    · rfl

theorem memWrite_keeps : Keeps memWrite := by
  intro s hs
  cases har : s.ar with
  | none =>
    have hrun : memWrite.run s = .error (.stuck (.unwrittenLatch .ar)) s := by simp [memWrite, readAR, har]
    rw [hrun]
    trivial
  | some a =>
    cases hout : s.alu.out with
    | none =>
      have hrun : memWrite.run s = .error (.stuck (.unwrittenLatch .aluOut)) s := by
        simp [memWrite, readAR, readAluOut, har, hout]
      rw [hrun]
      trivial
    | some v =>
      cases hw : writeEnd a v with
      | none => rw [memWrite_completes har hout hw]; exact hs.written hw
      | some c => rw [memWrite_ends har hout hw]; exact ⟨writeEnd_ne_capReached hw, hs⟩

/-! ### Phases 2 and 3 -/

/-- The family EncodeWellFormed, for every instruction. -/
theorem encode_wf (i : Instr) : (encode i).wf = true := by
  cases i with
  | add m n => exact Laws.EncodeWellFormed.add m n
  | sub m n => exact Laws.EncodeWellFormed.sub m n
  | mul m n => exact Laws.EncodeWellFormed.mul m n
  | div m n => exact Laws.EncodeWellFormed.div m n
  | mod m n => exact Laws.EncodeWellFormed.mod m n
  | cmp m n => exact Laws.EncodeWellFormed.cmp m n
  | ld m n => exact Laws.EncodeWellFormed.ld m n
  | st m n => exact Laws.EncodeWellFormed.st m n
  | jmp m n => exact Laws.EncodeWellFormed.jmp m n
  | jz m n => exact Laws.EncodeWellFormed.jz m n
  | hlt arg => exact Laws.EncodeWellFormed.hlt arg
  | var v => exact Laws.EncodeWellFormed.var v

theorem present_keeps {w : Word} (hw : w.wf = true) : Keeps (present w) :=
  Leads.modify fun _ hs =>
    { hs with
      memOutWellFormed := fun x hx => by cases hx; exact hw
      curWellFormed := fun x hx => by cases hx; exact hw }

/-- A read and its tick, as phases 2 and 3 make them. -/
theorem memRead_tick_keeps : Keeps (do memRead; tick) := memRead_keeps.bind fun _ => tick_keeps

theorem resolve_keeps (m : Mode) : Keeps (resolve m) := by
  cases m with
  | imm => exact Leads.pure ()
  | dir => exact latchAddressRegister_keeps .mem
  | ind =>
    exact (latchAddressRegister_keeps .mem).bind fun _ => memRead_keeps.bind fun _ => tick_keeps.bind fun _ =>
      latchAddressRegister_keeps .mem

theorem operandFetch_keeps (m : Mode) : Keeps (operandFetch m) := by
  cases m with
  | imm => exact Leads.pure ()
  | dir => exact memRead_tick_keeps
  | ind => exact memRead_tick_keeps

theorem operandPhases_keeps (i : Instr) (m : Mode) : Keeps (operandPhases i m) :=
  (present_keeps (encode_wf i)).bind fun _ => (resolve_keeps m).bind fun _ => operandFetch_keeps m

theorem operandFetchNone_keeps (onNone : Bool) : Keeps (operandFetchNone onNone) := by
  cases onNone with
  | false => exact Leads.pure ()
  | true => exact memRead_tick_keeps

theorem nonePhases_keeps (i : Instr) : Keeps (nonePhases i) :=
  (present_keeps (encode_wf i)).bind fun _ => operandFetchNone_keeps _

/-! ### The execute steps -/

theorem selectOperands_keeps : Keeps selectOperands :=
  memOutArg_keeps.bind fun v => (selectLeft_keeps v true).bind fun _ => readACC_keeps.bind fun a =>
    selectRight_keeps a true

/-- The end of an execute step that falls through to the next address. -/
theorem advancePC_tick_keeps : Keeps (do advancePC; tick) := advancePC_keeps.bind fun _ => tick_keeps

theorem accumulate_keeps (op : AluOp) : Keeps (accumulate op) :=
  selectOperands_keeps.bind fun _ => (compute_keeps op).bind fun _ => (latchAccumulator_keeps .alu).bind fun _ =>
    advancePC_tick_keeps

theorem compareAcc_keeps : Keeps compareAcc :=
  selectOperands_keeps.bind fun _ => (compute_keeps .cmp).bind fun _ => advancePC_tick_keeps

theorem loadAcc_keeps : Keeps loadAcc := (latchAccumulator_keeps .mem).bind fun _ => advancePC_tick_keeps

theorem storeAcc_keeps : Keeps storeAcc :=
  (latchAddressRegister_keeps .mem).bind fun _ => memOutArg_keeps.bind fun v => (selectLeft_keeps v false).bind fun _ =>
    readACC_keeps.bind fun a => (selectRight_keeps a true).bind fun _ => (compute_keeps .add).bind fun _ =>
      memWrite_keeps.bind fun _ => advancePC_tick_keeps

theorem jump_keeps : Keeps jump := jumpToArg_keeps.bind fun _ => tick_keeps

theorem branchZero_keeps : Keeps branchZero := Leads.get_bind fun s _ => by
  match s.alu.zero with
  | none => exact Leads.raise _ _
  | some true => exact jump_keeps
  | some false => exact advancePC_tick_keeps

/-- A data word executed always ends the run, so it leads to anything (spec/44_control.md R183). -/
theorem dataExecuted_leads (v : Int) (Q : State → Prop) : Leads (dataExecuted v) Q :=
  Leads.get_bind fun _ _ => Leads.raise _ _

/-! ### A whole cycle -/

theorem runOperand_inv {i : Instr} {m : Mode} {body : Signal Unit} {s t : State} (hbody : Keeps body) (hs : s.InCycle)
    (h : runOperand i m body s = .next t) : t.Inv :=
  Leads.finish_inv ((operandPhases_keeps i m).bind fun _ => hbody.bind fun _ => retire_leads) hs h

theorem runNone_inv {i : Instr} {body : Signal Unit} {s t : State} (hbody : Leads body State.Inv) (hs : s.InCycle)
    (h : runNone i body s = .next t) : t.Inv :=
  Leads.finish_inv ((nonePhases_keeps i).bind fun _ => hbody) hs h

/-- Phases 2 to 4 of every instruction end with the invariant. -/
theorem exec_inv {i : Instr} {s t : State} (hs : s.InCycle) (h : exec i s = .next t) : t.Inv := by
  cases i with
  | add m n => exact runOperand_inv (accumulate_keeps .add) hs h
  | sub m n => exact runOperand_inv (accumulate_keeps .sub) hs h
  | mul m n => exact runOperand_inv (accumulate_keeps .mul) hs h
  | div m n => exact runOperand_inv (accumulate_keeps .div) hs h
  | mod m n => exact runOperand_inv (accumulate_keeps .mod) hs h
  | cmp m n => exact runOperand_inv compareAcc_keeps hs h
  | ld m n => exact runOperand_inv loadAcc_keeps hs h
  | st m n => exact runOperand_inv storeAcc_keeps hs h
  | jmp m n => exact runOperand_inv jump_keeps hs h
  | jz m n => exact runOperand_inv branchZero_keeps hs h
  | hlt arg => exact runNone_inv (Leads.stop Terminal.noConfusion _) hs h
  | var v => exact runNone_inv (dataExecuted_leads v _) hs h

/-- A fetch keeps the invariant inside the cycle: MEM_OUT and CUR take a word that was delivered. -/
theorem fetch_keeps : Keeps fetch := by
  intro s hs
  rcases fetch_cases s with ⟨w, rest, hd, hrun⟩ | ⟨c, hc, hrun⟩ <;> rw [hrun]
  · have hw : w.wf = true := delivered_wf hs.wordsWellFormed hd
    exact { hs with
      memOutWellFormed := fun x hx => by cases hx; exact hw
      curWellFormed := fun x hx => by cases hx; exact hw }
  · exact ⟨readEnd_ne_capReached hc, { hs with }⟩

theorem instructionCycle_inv {s t : State} (hs : s.InCycle) (h : instructionCycle s = .next t) : t.Inv := by
  have hfetch := fetch_keeps s hs
  unfold instructionCycle at h
  cases hrun : fetch.run s with
  | error e u =>
    rw [hrun] at hfetch h
    cases e with
    | ends c =>
      cases h
      exact hfetch.2.endRun hfetch.1
    | stuck f => cases h
  | ok w u =>
    rw [hrun] at hfetch h
    cases hdec : decode w with
    | error e => simp only [hdec] at h; cases h
    | ok i =>
      simp only [hdec] at h
      exact exec_inv hfetch h

/-! ### One iteration of the driver's loop (spec/60_exceptions.md R222, R224) -/

theorem step_of_ended {s : State} {c : Terminal} (h : s.status = .ended c) : step s = .next s := by
  simp only [step, h]

theorem step_of_cap {s : State} (hrun : s.status = .running) (hcap : s.cycles = Config.iterationCap) :
    step s = .next (s.endRun .capReached) := by
  simp only [step, hrun, if_pos hcap]

theorem step_of_cycle {s : State} (hrun : s.status = .running) (hcap : s.cycles ≠ Config.iterationCap) :
    step s = instructionCycle { s with cycles := s.cycles + 1 } := by
  simp only [step, hrun, if_neg hcap]

/-- Settles O41, along the driver's loop: an ended state stays, the cap ends the run, or a cycle is begun and run. -/
theorem stepKeepsInvariant : Obligations.StepKeepsInvariant := by
  intro s t hinv h
  cases hstatus : s.status with
  | ended c =>
    rw [step_of_ended hstatus] at h
    cases h
    exact hinv
  | running =>
    by_cases hcap : s.cycles = Config.iterationCap
    · rw [step_of_cap hstatus hcap] at h
      cases h
      exact hinv.capReached hstatus hcap
    · rw [step_of_cycle hstatus hcap] at h
      exact instructionCycle_inv (hinv.begin_cycle hstatus hcap) h

end Sys2Proof.Machine
end

section
/-! PROOFS of the family State: the start of a run (O5, O39, O40), and what a step can do to the state (O37, O38, O44,
O45, O47, O48). The idea of the second part is one lemma, `step_answers`: what a step does is data, an `Effect`, that is
fixed by the program's view of the state before it, and the same effect takes every state with that view to its next
state. That two states with one view step alike, and that the counters change nothing, are then read off the form of an
effect; what a step leaves unchanged is read off the `Effect.Frame` it comes with. -/

namespace Sys2Proof.Machine

/-! ### The start of a run -/

/-- Settles O5: the values are those `State.reset` is written with (spec/10_state.md R38). -/
theorem resetStartsBlank : Obligations.ResetStartsBlank :=
  ⟨fun _ => rfl, rfl, rfl, rfl, rfl, rfl, rfl, rfl, rfl, rfl, rfl⟩

/-- Settles O39: nothing is listed in memory, nothing is latched, nothing is counted. -/
theorem invariantAtReset : Obligations.InvariantAtReset where
  memCanonical := rfl
  wordsWellFormed := nofun
  memOutWellFormed := nofun
  curWellFormed := nofun
  withinCap := Nat.zero_le _
  counters := rfl
  outputCodes := nofun
  flagsTogether := rfl
  outHasFlags := nofun

theorem decodeOperand_eq_ok {mk : Mode → Int → Instr} {w : Word} {i : Instr} (h : decodeOperand mk w = .ok i) :
    ∃ m n, w = ⟨w.op, some n, some m⟩ ∧ i = mk m n := by
  obtain ⟨op, arg, mode⟩ := w
  cases mode with
  | none => cases h
  | some m =>
    cases arg with
    | none => cases h
    | some n => cases h; exact ⟨m, n, rfl, rfl⟩

/-- Only a well-formed word decodes (spec/30_encoding.md R86). -/
theorem decode_ok_wf {w : Word} {i : Instr} (h : decode w = .ok i) : w.wf = true := by
  obtain ⟨op, arg, mode⟩ := w
  cases op with
  | hlt =>
    cases mode with
    | none => exact encode_wf (.hlt arg)
    | some m => cases h
  | var =>
    cases mode with
    | some m => cases h
    | none =>
      cases arg with
      | none => cases h
      | some v => exact encode_wf (.var v)
  | _ => obtain ⟨m, n, hw, -⟩ := decodeOperand_eq_ok h; rw [hw]; rfl

/-- An image in which no word is refused holds well-formed words only. -/
theorem firstIllFormed_eq_none {image : List Word} (h : firstIllFormed image = none) : ∀ w ∈ image, w.wf = true := by
  induction image with
  | nil => nofun
  | cons w rest ih =>
    simp only [firstIllFormed] at h
    split at h
    · cases h
    · rename_i i hdec
      exact List.forall_mem_cons.mpr ⟨decode_ok_wf hdec, ih h⟩

/-- What the load has checked of an image it gives a run, and the state it answers (spec/60_exceptions.md R223). -/
theorem load_eq_next {image : List Word} {startPC : Int} {input : List Nat} {s : State}
    (h : State.load image startPC input = .next s) :
    image.length ≤ Config.inputPort ∧ firstIllFormed image = none ∧
      s = { State.reset with mem := Memory.placeFrom 0 image, pc := startPC, input := input } := by
  unfold State.load at h
  split at h
  · cases h
  · split at h
    · cases h
    · cases h
      exact ⟨by omega, by assumption, rfl⟩

/-- Settles O40: a loaded state is the reset state but for memory, PC and input, and memory holds the checked image. -/
theorem invariantAtLoad : Obligations.InvariantAtLoad := by
  intro image startPC input s h
  obtain ⟨hlen, hwf, rfl⟩ := load_eq_next h
  exact { invariantAtReset with
    memCanonical := Memory.wfFrom_placeFrom image 0 (by omega)
    wordsWellFormed := fun c hc => firstIllFormed_eq_none hwf c.2 (Memory.mem_placeFrom hc) }

/-! ### Effects -/

/-- What has been done since a cycle began, said without the state it began in: the program's view now, the latches
written (`none` where the old value is kept), and how far TICKS and INSTRS have advanced. -/
structure Effect where
  view   : ProgramView
  ar     : Option Int
  memOut : Option Word
  cur    : Option Word
  left   : Option Int
  right  : Option Int
  out    : Option Int
  neg    : Option Bool
  ticks  : Nat
  instrs : Nat

/-- The state an effect leads to from `s`. Of `s` itself only what the program's view leaves out comes through. -/
def Effect.on (e : Effect) (s : State) : State where
  acc    := e.view.acc
  ar     := e.ar.or s.ar
  pc     := e.view.pc
  alu    := ⟨e.left.or s.alu.left, e.right.or s.alu.right, e.out.or s.alu.out, e.view.zero, e.neg.or s.alu.neg⟩
  memOut := e.memOut.or s.memOut
  cur    := e.cur.or s.cur
  mem    := e.view.mem
  input  := e.view.input
  output := e.view.output
  ticks  := s.ticks + e.ticks
  instrs := s.instrs + e.instrs
  status := e.view.status
  cycles := e.view.cycles

/-- Nothing done yet. -/
def Effect.start (v : ProgramView) : Effect := ⟨v, none, none, none, none, none, none, none, 0, 0⟩

theorem Effect.start_on {v : ProgramView} {s : State} (h : s.view = v) : (Effect.start v).on s = s := by
  subst h; rfl

@[simp] theorem Effect.on_view (e : Effect) (s : State) : (e.on s).view = e.view := rfl

theorem Effect.on_memOut {e : Effect} {w : Word} (h : e.memOut = some w) (s : State) : (e.on s).memOut = some w := by
  simp only [Effect.on, h, Option.some_or]

theorem Effect.on_zero (e : Effect) (s : State) : (e.on s).alu.zero = e.view.zero := rfl

/-- STATUS takes a terminal condition (`State.endRun`). -/
def Effect.ended (e : Effect) (c : Terminal) : Effect := { e with view := { e.view with status := .ended c } }

@[simp] theorem Effect.ended_on (e : Effect) (c : Terminal) (s : State) : (e.ended c).on s = (e.on s).endRun c := rfl

/-- The driver begins a cycle: CYCLES counts it (spec/60_exceptions.md R222). -/
def Effect.begun (e : Effect) : Effect := { e with view := { e.view with cycles := e.view.cycles + 1 } }

/-- One more instruction is counted (spec/41_sequencer.md R134). -/
def Effect.retired (e : Effect) : Effect := { e with instrs := e.instrs + 1 }

@[simp] theorem Effect.retired_on (e : Effect) (s : State) :
    e.retired.on s = { e.on s with instrs := (e.on s).instrs + 1 } := rfl

/-- What the phases that only read leave: AR, MEM_OUT, CUR, the input left, and their ticks. -/
def Effect.reads (e : Effect) (a : Int) (w c : Word) (rest : List Nat) (k : Nat) : Effect :=
  { e with
    ar := some a, memOut := some w, cur := some c, ticks := e.ticks + k, view := { e.view with input := rest } }

theorem Effect.reads_on (e : Effect) (a : Int) (w : Word) (i : Instr) (rest : List Nat) (k : Nat) (s : State) :
    (e.reads a w (encode i) rest k).on s = endedInPhases i a w rest k (e.on s) := by
  simp only [Effect.on, Effect.reads, endedInPhases, Option.some_or, Nat.add_assoc]

theorem Effect.reads_on_afterPhases (e : Effect) (i : Instr) (m : Mode) (o : OperandRead) (s : State) :
    (e.reads o.ar o.word (encode i) o.input (phaseTicks m)).on s = afterPhases i m o (e.on s) := e.reads_on ..

/-! ### What an effect leaves unchanged -/

/-- What `e'` may have done after `e`: drop input from the front, append at most one output (spec/10_state.md R33, R34),
and write ACC or the flags only where the first two arguments allow it. A field left out of a proof is unchanged. -/
structure Effect.Frame (acc flags : Bool) (e e' : Effect) : Prop where
  input : e'.view.input <:+ e.view.input := by exact List.suffix_rfl
  output : e'.view.output = e.view.output ∨ ∃ c, e'.view.output = e.view.output ++ [c] := by exact .inl rfl
  cycles : e.view.cycles ≤ e'.view.cycles := by exact Nat.le_refl _
  accKept : acc = false → e'.view.acc = e.view.acc := by exact fun _ => rfl
  zeroKept : flags = false → e'.view.zero = e.view.zero := by exact fun _ => rfl
  negKept : flags = false → e'.neg = e.neg := by exact fun _ => rfl

section Frame
variable {acc flags : Bool} {e e' : Effect}

theorem Effect.Frame.ended (h : e.Frame acc flags e') (c : Terminal) : e.Frame acc flags (e'.ended c) := { h with }

theorem Effect.Frame.retired (h : e.Frame acc flags e') : e.Frame acc flags e'.retired := { h with }

theorem Effect.Frame.weaken (h : e.Frame acc flags e') : e.Frame true true e' :=
  { h with accKept := nofun, zeroKept := nofun, negKept := nofun }

/-- The phases that only read widen a frame by the input they consume. -/
theorem Effect.Frame.of_reads {a : Int} {w c : Word} {rest : List Nat} {k : Nat} (hrest : rest <:+ e.view.input)
    (h : (e.reads a w c rest k).Frame acc flags e') : e.Frame acc flags e' :=
  { h with input := h.input.trans hrest }

theorem Effect.frame_reads {a : Int} {w c : Word} {rest : List Nat} {k : Nat} (hrest : rest <:+ e.view.input) :
    e.Frame acc flags (e.reads a w c rest k) := .of_reads hrest {}

end Frame

/-- From every state `e` leads to, `f` answers the next state that one effect `e'` leads to; and where it changes STATUS
it keeps PC. -/
def Answers (acc flags : Bool) (f : State → Host.Outcome State Fault Refusal) (e : Effect) : Prop :=
  ∃ e', (∀ s, f (e.on s) = .next (e'.on s)) ∧ e.Frame acc flags e' ∧
    (e'.view.status = e.view.status ∨ e'.view.pc = e.view.pc)

/-- From every state `e` leads to, the signal `x` does the same: it completes with STATUS kept, or it ends the run by one
terminal condition with PC kept. It is stuck from none of them. -/
inductive Determined (acc flags : Bool) (x : Signal Unit) (e : Effect) : Prop
  | completes (e' : Effect) (hf : e.Frame acc flags e') (hstatus : e'.view.status = e.view.status)
      (hrun : ∀ s, x.run (e.on s) = .ok () (e'.on s))
  | ends (c : Terminal) (e' : Effect) (hf : e.Frame acc flags e') (hpc : e'.view.pc = e.view.pc)
      (hrun : ∀ s, x.run (e.on s) = .error (.ends c) (e'.on s))

/-! ### The execute steps -/

/-- What ADD, SUB, MUL, DIV and MOD have done when they complete with the result `r` of the operand `v` and ACC's `a`. -/
def Effect.accumulated (e : Effect) (v a r : Int) : Effect :=
  { e with
    left := some v, right := some a, out := some r, neg := some (decide (r < 0)), ticks := e.ticks + 1
    view := { e.view with acc := some r, zero := some (decide (r = 0)), pc := e.view.pc + 1 } }

/-- What CMP has done when it completes: ACC and ALU.out are kept (spec/42_arithmetic.md R155). -/
def Effect.compared (e : Effect) (v a : Int) : Effect :=
  { e with
    left := some v, right := some a, neg := some (decide (a - v < 0)), ticks := e.ticks + 1
    view := { e.view with zero := some (decide (a - v = 0)), pc := e.view.pc + 1 } }

/-- What LD has done when it completes. -/
def Effect.loaded (e : Effect) (v : Int) : Effect :=
  { e with ticks := e.ticks + 1, view := { e.view with acc := some v, pc := e.view.pc + 1 } }

/-- What JMP and JZ have done when they complete: only PC and TICKS change. -/
def Effect.moved (e : Effect) (pc : Int) : Effect :=
  { e with ticks := e.ticks + 1, view := { e.view with pc := pc } }

/-- What ST has done when its write begins (`beforeWrite`). -/
def Effect.beforeWrite (e : Effect) (v a : Int) : Effect :=
  { e with
    ar := some v, left := some 0, right := some a, out := some a, neg := some (decide (a < 0))
    view := { e.view with zero := some (decide (a = 0)) } }

/-- What ST has done when it completes (`written`). -/
def Effect.stored (e : Effect) (v a : Int) : Effect :=
  { e.beforeWrite v a with
    ticks := e.ticks + 1
    view := { (e.beforeWrite v a).view with
      output := if v = Config.outputPort then e.view.output ++ [a.toNat] else e.view.output
      mem := if v = Config.outputPort then e.view.mem else e.view.mem.write v.toNat (Word.data a)
      pc := e.view.pc + 1 } }

theorem Effect.stored_output (e : Effect) (v a : Int) : (e.stored v a).view.output = e.view.output ∨
    ∃ c, (e.stored v a).view.output = e.view.output ++ [c] := by
  by_cases hport : v = Config.outputPort
  · exact .inr ⟨a.toNat, if_pos hport⟩
  · exact .inl (if_neg hport)

section ExecuteSteps
variable {e : Effect} {w : Word} (hw : e.memOut = some w)
include hw

theorem accumulate_determined {op : AluOp} (hop : op ≠ .cmp) : Determined true true (accumulate op) e := by
  have hw := e.on_memOut hw
  cases hv : w.arg with
  | none => exact .ends _ e {} rfl fun s => accumulate_noArg (hw s) hv
  | some v =>
    cases ha : e.view.acc with
    | none => exact .ends _ { e with left := some v } {} rfl fun s => accumulate_noAcc (hw s) hv ha
    | some a =>
      by_cases hz : op.divides = true ∧ v = 0
      · obtain ⟨hdiv, rfl⟩ := hz
        exact .ends _ { e with left := some 0, right := some a } {} rfl fun s =>
          accumulate_divZero (hw s) hv ha hdiv
      · exact .completes (e.accumulated v a (aluResult op a v))
          { accKept := nofun, zeroKept := nofun, negKept := nofun } rfl fun s =>
            accumulate_run hop (hw s) hv ha fun hdiv hv0 => hz ⟨hdiv, hv0⟩

theorem compareAcc_determined : Determined false true compareAcc e := by
  have hw := e.on_memOut hw
  cases hv : w.arg with
  | none => exact .ends _ e {} rfl fun s => compareAcc_noArg (hw s) hv
  | some v =>
    cases ha : e.view.acc with
    | none => exact .ends _ { e with left := some v } {} rfl fun s => compareAcc_noAcc (hw s) hv ha
    | some a =>
      exact .completes (e.compared v a) { zeroKept := nofun, negKept := nofun } rfl fun s =>
        compareAcc_run (hw s) hv ha

theorem loadAcc_determined : Determined true false loadAcc e := by
  have hrun := fun s => loadAcc_run (e.on_memOut hw s)
  cases hv : w.arg with
  | none => exact .ends _ e {} rfl fun s => by rw [hrun, hv]
  | some v =>
    exact .completes (e.loaded v) { accKept := nofun } rfl fun s => by rw [hrun, hv]; rfl

theorem storeAcc_determined : Determined false true storeAcc e := by
  have hw := e.on_memOut hw
  cases hv : w.arg with
  | none => exact .ends _ e {} rfl fun s => storeAcc_noArg (hw s) hv
  | some v =>
    cases ha : e.view.acc with
    | none =>
      exact .ends _ { e with ar := some v, left := some 0 } {} rfl fun s => storeAcc_noAcc (hw s) hv ha
    | some a =>
      have hrun := fun s => storeAcc_run (hw s) hv ha
      cases hend : writeEnd v a with
      | some c =>
        exact .ends c (e.beforeWrite v a) { zeroKept := nofun, negKept := nofun } rfl fun s => by
          rw [hrun, hend]; rfl
      | none =>
        exact .completes (e.stored v a)
          { output := e.stored_output v a, zeroKept := nofun, negKept := nofun } rfl fun s => by
            rw [hrun, hend]; rfl

theorem jump_determined : Determined false false jump e := by
  have hrun := fun s => jump_run (e.on_memOut hw s)
  cases hv : w.arg with
  | none => exact .ends _ e {} rfl fun s => by rw [hrun, hv]
  | some v =>
    exact .completes (e.moved v) {} rfl fun s => by rw [hrun, hv]; rfl

theorem branchZero_determined : Determined false false branchZero e := by
  have hrun := fun s => branchZero_run (e.on_memOut hw s)
  cases hz : e.view.zero with
  | none => exact .ends (.fault (.uninitialisedRead .zero)) e {} rfl fun s => by rw [hrun, e.on_zero, hz]
  | some taken =>
    cases taken with
    | false =>
      exact .completes (e.moved (e.view.pc + 1)) {} rfl fun s => by rw [hrun, e.on_zero, hz]; rfl
    | true =>
      cases hv : w.arg with
      | none => exact .ends (.fault (.argumentAbsent w)) e {} rfl fun s => by rw [hrun, e.on_zero, hz, hv]
      | some v =>
        exact .completes (e.moved v) {} rfl fun s => by rw [hrun, e.on_zero, hz, hv]; rfl

end ExecuteSteps

/-! ### Phases 1 to 3 -/

theorem delivered_suffix {a : Int} {mem : Memory} {input rest : List Nat} {w : Word}
    (h : delivered a mem input = some (w, rest)) : rest <:+ input := by
  rcases delivered_cases h with ⟨c, _, rfl, _⟩ | ⟨_, _, _, rfl⟩
  · exact List.suffix_cons c rest
  · exact List.suffix_rfl

theorem operandRead_suffix {w : Word} {m : Mode} {n : Int} {s : State} {o : OperandRead}
    (h : operandRead w m n s = some o) : o.input <:+ s.input := by
  cases m with
  | imm => cases h; exact List.suffix_rfl
  | dir =>
    obtain ⟨_, hd, rfl⟩ := Option.map_eq_some_iff.mp h
    exact delivered_suffix hd
  | ind =>
    simp only [operandRead, Option.bind_eq_some_iff, Option.map_eq_some_iff] at h
    obtain ⟨_, hp, _, _, _, hd, rfl⟩ := h
    exact (delivered_suffix hd).trans (delivered_suffix hp)

/-- Where phases 2 and 3 end the run from one state an effect leads to, they end it alike from all of them. -/
theorem phaseEnd_uniform {i : Instr} {n : Int} {m : Mode} {c : Terminal} {e : Effect} {s t : State}
    (h : PhaseEnd i n (e.on s) m c t) :
    ∃ a w rest k, rest <:+ e.view.input ∧ ∀ u, PhaseEnd i n (e.on u) m c (endedInPhases i a w rest k (e.on u)) := by
  cases h with
  | dirRead _ h => exact ⟨_, _, _, _, List.suffix_rfl, fun _ => .dirRead c h⟩
  | indRead _ h => exact ⟨_, _, _, _, List.suffix_rfl, fun _ => .indRead c h⟩
  | indArg w rest h hw => exact ⟨_, _, _, _, delivered_suffix h, fun _ => .indArg w rest h hw⟩
  | indSecond w rest q _ h hw hc => exact ⟨_, _, _, _, delivered_suffix h, fun _ => .indSecond w rest q c h hw hc⟩

/-- Phases 2 to 4 of an operand instruction, from what its execute step does. -/
theorem runOperand_answers {acc flags : Bool} {i : Instr} {m : Mode} {n : Int} {body : Signal Unit}
    (hn : (encode i).arg = some n) (hbody : ∀ (e : Effect) (w : Word), e.memOut = some w → Determined acc flags body e)
    (e : Effect) : Answers acc flags (runOperand i m body) e := by
  rcases operandPhases_cases i m n (e.on .reset) hn with ⟨o, ho, -⟩ | ⟨c, t, hend, -⟩
  · have hinput : o.input <:+ e.view.input := operandRead_suffix ho
    have hphases := fun s => runOperand_reads body hn (show operandRead (encode i) m n (e.on s) = some o from ho)
    cases hbody (e.reads o.ar o.word (encode i) o.input (phaseTicks m)) o.word rfl with
    | completes e' hf hstatus hrun =>
      refine ⟨e'.retired, fun s => ?_, (hf.of_reads hinput).retired, .inl hstatus⟩
      rw [hphases, ← Effect.reads_on_afterPhases, hrun, Effect.retired_on]
    | ends c e' hf hpc hrun =>
      refine ⟨e'.ended c, fun s => ?_, (hf.of_reads hinput).ended c, .inr hpc⟩
      rw [hphases, ← Effect.reads_on_afterPhases, hrun, Effect.ended_on]
      rfl
  · obtain ⟨a, w, rest, k, hinput, hall⟩ := phaseEnd_uniform hend
    refine ⟨(e.reads a w (encode i) rest k).ended c, fun s => ?_, (Effect.frame_reads hinput).ended c, .inr rfl⟩
    rw [runOperand_phaseEnd body hn (hall s), Effect.ended_on, Effect.reads_on]

/-- Phases 2 and 3 of a word without an addressing mode read at PC or not at all (spec/41_sequencer.md R131), and do so
alike from all the states an effect leads to. -/
theorem nonePhases_uniform (i : Instr) (e : Effect) :
    ∃ e', e.Frame false false e' ∧ e'.view.pc = e.view.pc ∧
      ((∀ s, (nonePhases i).run (e.on s) = .ok () (e'.on s)) ∨
        ∃ c, ∀ s, (nonePhases i).run (e.on s) = .error (.ends c) (e'.on s)) := by
  simp only [nonePhases, EStateM.run_bind, present_run, operandFetchNone]
  cases Config.operandFetchOnNone with
  | false =>
    exact ⟨e.reads e.view.pc (encode i) (encode i) e.view.input 0, Effect.frame_reads List.suffix_rfl, rfl,
      .inl fun _ => rfl⟩
  | true =>
    simp only [if_true, EStateM.run_bind]
    cases hd : delivered e.view.pc e.view.mem e.view.input with
    | some x =>
      obtain ⟨w, rest⟩ := x
      refine ⟨e.reads e.view.pc w (encode i) rest 1, Effect.frame_reads (delivered_suffix hd), rfl, .inl fun s => ?_⟩
      rw [memRead_at hd _ rfl rfl rfl]
      rfl
    | none =>
      obtain ⟨c, hc⟩ := (delivered_eq_none_iff ..).mp hd
      refine ⟨e.reads e.view.pc (encode i) (encode i) e.view.input 0, Effect.frame_reads List.suffix_rfl, rfl,
        .inr ⟨c, fun s => ?_⟩⟩
      rw [memRead_ends_at hc _ rfl rfl]
      rfl

/-- Phases 2 to 4 of a word without an addressing mode, whose execute step ends the run at once. -/
theorem runNone_answers {i : Instr} {body : Signal Unit} {c : Effect → Terminal}
    (hbody : ∀ (e : Effect) (s : State), body.run (e.on s) = .error (.ends (c e)) (e.on s)) (e : Effect) :
    Answers false false (runNone i body) e := by
  obtain ⟨e', hf, hpc, hrun | ⟨d, hrun⟩⟩ := nonePhases_uniform i e
  · refine ⟨e'.ended (c e'), fun s => ?_, hf.ended _, .inr hpc⟩
    simp only [runNone, EStateM.run_bind, hrun, hbody, finish_ends, Effect.ended_on]
  · refine ⟨e'.ended d, fun s => ?_, hf.ended _, .inr hpc⟩
    simp only [runNone, EStateM.run_bind, hrun, finish_ends, Effect.ended_on]

/-! ### Every instruction -/

/-- The instructions that may write ACC (spec/10_state.md R21). -/
def writesAcc : Instr → Bool
  | .add _ _ | .sub _ _ | .mul _ _ | .div _ _ | .mod _ _ | .ld _ _ => true
  | .cmp _ _ | .st _ _ | .jmp _ _ | .jz _ _ | .hlt _ | .var _ => false

theorem eq_of_writesAcc {i : Instr} (h : writesAcc i = true) :
    ∃ m n, i = .ld m n ∨ i = .add m n ∨ i = .sub m n ∨ i = .mul m n ∨ i = .div m n ∨ i = .mod m n := by
  cases i with
  | cmp | st | jmp | jz | hlt | var => cases h
  | _ m n => exact ⟨m, n, by simp⟩

/-- The instructions that may write the flags (spec/10_state.md R27, R28). -/
def writesFlags : Instr → Bool
  | .add _ _ | .sub _ _ | .mul _ _ | .div _ _ | .mod _ _ | .cmp _ _ | .st _ _ => true
  | .ld _ _ | .jmp _ _ | .jz _ _ | .hlt _ | .var _ => false

theorem eq_of_writesFlags {i : Instr} (h : writesFlags i = true) :
    ∃ m n, i = .add m n ∨ i = .sub m n ∨ i = .mul m n ∨ i = .div m n ∨ i = .mod m n ∨ i = .cmp m n ∨ i = .st m n := by
  cases i with
  | ld | jmp | jz | hlt | var => cases h
  | _ m n => exact ⟨m, n, by simp⟩

/-- Phases 2 to 4 of every instruction. -/
theorem exec_answers (i : Instr) (e : Effect) : Answers (writesAcc i) (writesFlags i) (exec i) e := by
  cases i with
  | add m n => exact runOperand_answers rfl (fun _ _ hw => accumulate_determined (op := .add) hw nofun) e
  | sub m n => exact runOperand_answers rfl (fun _ _ hw => accumulate_determined (op := .sub) hw nofun) e
  | mul m n => exact runOperand_answers rfl (fun _ _ hw => accumulate_determined (op := .mul) hw nofun) e
  | div m n => exact runOperand_answers rfl (fun _ _ hw => accumulate_determined (op := .div) hw nofun) e
  | mod m n => exact runOperand_answers rfl (fun _ _ hw => accumulate_determined (op := .mod) hw nofun) e
  | cmp m n => exact runOperand_answers rfl (fun _ _ hw => compareAcc_determined hw) e
  | ld m n => exact runOperand_answers rfl (fun _ _ hw => loadAcc_determined hw) e
  | st m n => exact runOperand_answers rfl (fun _ _ hw => storeAcc_determined hw) e
  | jmp m n => exact runOperand_answers rfl (fun _ _ hw => jump_determined hw) e
  | jz m n => exact runOperand_answers rfl (fun _ _ hw => branchZero_determined hw) e
  | hlt arg => exact runNone_answers (c := fun _ => .halted) (fun _ _ => rfl) e
  | var v => exact runNone_answers (c := fun e => .fault (.varExecuted e.view.pc v)) (fun _ _ => rfl) e

/-- Settles O38: the effect `exec_answers` gives leads to the next state. -/
theorem execAlwaysAnswersNext : Obligations.ExecAlwaysAnswersNext := by
  intro i s
  obtain ⟨e', hnext, -, -⟩ := exec_answers i (.start s.view)
  exact ⟨e'.on s, hnext s⟩

/-! ### One step -/

/-- A whole cycle: it is refused for its word, or it has one effect. -/
theorem instructionCycle_answers (e : Effect) :
    (∃ r, ∀ s, instructionCycle (e.on s) = .refused r) ∨ Answers true true instructionCycle e := by
  simp only [Answers, instructionCycle]
  cases hd : delivered e.view.pc e.view.mem e.view.input with
  | none =>
    obtain ⟨c, hc⟩ := (delivered_eq_none_iff ..).mp hd
    have hfetch := fun s => fetch_ends (s := e.on s) hc
    refine .inr ⟨({ e with ar := some e.view.pc } : Effect).ended c, fun s => ?_, {}, .inr rfl⟩
    rw [hfetch]
    rfl
  | some x =>
    obtain ⟨w, rest⟩ := x
    have hfetch : ∀ s, fetch.run (e.on s) = .ok w ((e.reads e.view.pc w w rest 1).on s) := fun s => fetch_delivers hd
    simp only [hfetch]
    cases hdec : decode w with
    | error r => exact .inl ⟨.illFormedWord r, fun _ => rfl⟩
    | ok i =>
      obtain ⟨e', hnext, hf, hend⟩ := exec_answers i (e.reads e.view.pc w w rest 1)
      exact .inr ⟨e', hnext, (hf.of_reads (delivered_suffix hd)).weaken, hend⟩

/-- What a step can do, said once: it is refused from every state an effect leads to, or it has one effect. -/
theorem step_answers (e : Effect) : (∃ r, ∀ s, step (e.on s) = .refused r) ∨ Answers true true step e := by
  cases hstatus : e.view.status with
  | ended c => exact .inr ⟨e, fun s => step_of_ended hstatus, {}, .inl rfl⟩
  | running =>
    by_cases hcap : e.view.cycles = Config.iterationCap
    · exact .inr ⟨e.ended .capReached, fun s => step_of_cap hstatus hcap, {}, .inr rfl⟩
    · have hcycle : ∀ s, step (e.on s) = instructionCycle (e.begun.on s) := fun s => step_of_cycle hstatus hcap
      simp only [Answers, hcycle]
      refine (instructionCycle_answers e.begun).imp_right ?_
      rintro ⟨e', hnext, hf, hend⟩
      exact ⟨e', hnext, { hf with cycles := Nat.le_of_succ_le hf.cycles }, hend⟩

/-- A step from the states with one program view: refused from all of them, or one effect for all of them. -/
theorem step_of_view (v : ProgramView) :
    (∃ r, ∀ s : State, s.view = v → step s = .refused r) ∨
    (∃ e, (∀ s : State, s.view = v → step s = .next (e.on s)) ∧ (Effect.start v).Frame true true e ∧
      (e.view.status = v.status ∨ e.view.pc = v.pc)) := by
  rcases step_answers (.start v) with ⟨r, h⟩ | ⟨e, h, hf, hend⟩
  · exact .inl ⟨r, fun s hs => by rw [← h s, Effect.start_on hs]⟩
  · exact .inr ⟨e, fun s hs => by rw [← h s, Effect.start_on hs], hf, hend⟩

/-- The effect of a step that answers a next state: it is the effect of a step from every state with the same view. -/
theorem step_effect {s t : State} (h : step s = .next t) :
    ∃ e : Effect, t = e.on s ∧ (∀ u : State, u.view = s.view → step u = .next (e.on u)) ∧
      (Effect.start s.view).Frame true true e ∧ (t.status = s.status ∨ t.pc = s.pc) := by
  rcases step_of_view s.view with ⟨r, hr⟩ | ⟨e, he, hf, hend⟩
  · rw [hr s rfl] at h; cases h
  · rw [he s rfl] at h; cases h
    exact ⟨e, rfl, he, hf, hend⟩

/-- Settles O47: states with one view are refused alike, or one effect leads both to states with its view. -/
theorem hiddenStateDoesNotInterfere : Obligations.HiddenStateDoesNotInterfere := by
  intro s s' hview
  rcases step_of_view s.view with ⟨r, hr⟩ | ⟨e, he, -, -⟩
  · rw [hr s rfl, hr s' hview.symm]
  · rw [he s rfl, he s' hview.symm]
    simp only [viewOutcome, Effect.on_view]

/-- Settles O48: TICKS and INSTRS are no part of the view, and an effect only adds to them. -/
theorem countersDoNotInterfere : Obligations.CountersDoNotInterfere := by
  intro s t k j h
  obtain ⟨e, rfl, hstep, -, -⟩ := step_effect h
  exact ⟨e.ticks, e.instrs, rfl, rfl, hstep (Statements.withCounters s k j) rfl⟩

/-- Settles O37: an effect that changes STATUS keeps PC. -/
theorem endedCycleKeepsPC : Obligations.EndedCycleKeepsPC := by
  intro s t hrunning h hended
  obtain ⟨-, -, -, -, hstatus | hpc⟩ := step_effect h
  · exact absurd (hstatus.trans hrunning) hended
  · exact hpc

/-- Settles O44: the streams by the frame of the step's effect, TICKS and INSTRS because an effect only adds to them. -/
theorem streamsAndCountersAreMonotone : Obligations.StreamsAndCountersAreMonotone := by
  intro s t h
  obtain ⟨e, rfl, -, hf, -⟩ := step_effect h
  exact ⟨hf.input, hf.output, Nat.le_add_right .., Nat.le_add_right .., hf.cycles⟩

/-! ### The writers of ACC and of the flags -/

/-- The state the fetch of `w` at PC leaves in a cycle begun from `s` (spec/41_sequencer.md R125). -/
def fetched (w : Word) (s : State) : State :=
  { s with cycles := s.cycles + 1, ar := some s.pc, memOut := some w, cur := some w, ticks := s.ticks + 1 }

theorem step_of_decode {s : State} {i : Instr} (hcycle : Statements.runsCycle s)
    (hpc : Statements.generalPurpose s.pc) (hdec : decode (s.mem.read s.pc.toNat) = .ok i) :
    step s = exec i (fetched (s.mem.read s.pc.toNat) s) := by
  obtain ⟨hrun, hcap⟩ := hcycle
  rw [step_of_cycle hrun hcap, instructionCycle,
    fetch_delivers (s := { s with cycles := s.cycles + 1 }) (delivered_cell hpc.1 hpc.2)]
  simp only [hdec]
  rfl

theorem exec_keeps_acc {i : Instr} {s t : State} (hi : writesAcc i = false) (h : exec i s = .next t) :
    t.acc = s.acc := by
  obtain ⟨e, hnext, hf, -⟩ := exec_answers i (.start s.view)
  cases h.symm.trans (hnext s)
  exact hf.accKept hi

theorem exec_keeps_flags {i : Instr} {s t : State} (hi : writesFlags i = false) (h : exec i s = .next t) :
    t.alu.zero = s.alu.zero ∧ t.alu.neg = s.alu.neg := by
  obtain ⟨e, hnext, hf, -⟩ := exec_answers i (.start s.view)
  cases h.symm.trans (hnext s)
  have hneg : e.neg = none := hf.negKept hi
  exact ⟨hf.zeroKept hi, by simp only [Effect.on, hneg, Option.none_or]⟩

/-- Settles O45: an instruction outside the list keeps ACC, or the flags, and the fetch keeps both. -/
theorem writersOfAccAndFlags : Obligations.WritersOfAccAndFlags := by
  intro s t i hcycle hpc hdec h
  rw [step_of_decode hcycle hpc hdec] at h
  constructor
  · intro hacc
    cases hi : writesAcc i with
    | false => exact absurd (exec_keeps_acc hi h) hacc
    | true => exact eq_of_writesAcc hi
  · intro hflags
    cases hi : writesFlags i with
    | false =>
      obtain ⟨hzero, hneg⟩ := exec_keeps_flags hi h
      exact absurd hflags (not_or.mpr ⟨not_not.mpr hzero, not_not.mpr hneg⟩)
    | true => exact eq_of_writesFlags hi

end Sys2Proof.Machine
end

section
/-! PROOFS of the family Memory: the canonical form (O6), `MemRead` by region (O11), what a step can do to memory (O43),
and the fetch of a cell just stored (O46). The last two rest on one inversion: phases 1 to 3 and every execute step but
ST's keep memory (`exec_keeps_mem`), and ST writes at most one cell, by a data word, at its address (`exec_st_mem`). -/

namespace Sys2Proof.Machine

/-! ### The canonical form -/

theorem Memory.wfFrom_cons {lo k : Nat} {w : Word} {rest : Memory} :
    Memory.wfFrom lo ((k, w) :: rest) = true ↔
      lo ≤ k ∧ k < Config.inputPort ∧ w ≠ Word.data 0 ∧ rest.wfFrom (k + 1) = true := by
  simp only [Memory.wfFrom, Bool.and_eq_true, decide_eq_true_eq, and_assoc]

@[simp] theorem Memory.read_head (k : Nat) (w : Word) (rest : Memory) : Memory.read ((k, w) :: rest) k = w := if_pos rfl

theorem Memory.read_tail {k a : Nat} (w : Word) (rest : Memory) (h : k ≠ a) :
    Memory.read ((k, w) :: rest) a = rest.read a := if_neg h

/-- A canonical memory lists its first cell for a reason: no canonical memory that begins above it reads the same. -/
theorem Memory.le_of_sameReads {lo lo' k : Nat} {w : Word} {rest m' : Memory}
    (hm : Memory.wfFrom lo ((k, w) :: rest) = true) (hm' : m'.wfFrom lo' = true)
    (hread : ∀ a, Memory.read ((k, w) :: rest) a = m'.read a) : lo' ≤ k := by
  by_contra hlt
  obtain ⟨-, -, hw, -⟩ := Memory.wfFrom_cons.mp hm
  have hdefault : m'.read k = Word.data 0 := Memory.read_below hm' (by omega)
  exact hw (by rw [← hdefault, ← hread, Memory.read_head])

/-- Below the first listed cell everything is the default, so the first cells agree; then the rests do. -/
theorem Memory.eq_of_sameReads {lo lo' : Nat} {m m' : Memory} (hm : m.wfFrom lo = true) (hm' : m'.wfFrom lo' = true)
    (hread : ∀ a, m.read a = m'.read a) : m = m' := by
  induction m generalizing lo lo' m' with
  | nil =>
    cases m' with
    | nil => rfl
    | cons c' rest' =>
      obtain ⟨k', w'⟩ := c'
      have hle := Memory.le_of_sameReads (lo' := k' + 1) hm' rfl fun a => (hread a).symm
      omega
  | cons c rest ih =>
    obtain ⟨k, w⟩ := c
    obtain ⟨-, hk, hw, hrest⟩ := Memory.wfFrom_cons.mp hm
    cases m' with
    | nil =>
      have hle := Memory.le_of_sameReads (lo' := k + 1) hm rfl hread
      omega
    | cons c' rest' =>
      obtain ⟨k', w'⟩ := c'
      obtain ⟨-, hk', hw', hrest'⟩ := Memory.wfFrom_cons.mp hm'
      have hle' : k' ≤ k := Memory.le_of_sameReads hm (Memory.wfFrom_cons.mpr ⟨le_rfl, hk', hw', hrest'⟩) hread
      have hle : k ≤ k' :=
        Memory.le_of_sameReads hm' (Memory.wfFrom_cons.mpr ⟨le_rfl, hk, hw, hrest⟩) fun a => (hread a).symm
      obtain rfl : k = k' := Nat.le_antisymm hle hle'
      have hword : w = w' := by simpa using hread k
      have hrests : rest = rest' := by
        refine ih hrest hrest' fun a => ?_
        by_cases ha : k = a
        · rw [Memory.read_below hrest (by omega), Memory.read_below hrest' (by omega)]
        · rw [← Memory.read_tail w rest ha, ← Memory.read_tail w' rest' ha, hread]
      rw [hword, hrests]

/-- Settles O6: the canonical form from address 0. -/
theorem canonicalMemoryIsExtensional : Obligations.CanonicalMemoryIsExtensional :=
  fun _ _ hm hm' hread => Memory.eq_of_sameReads hm hm' hread

/-! ### A read, by region -/

/-- Settles O11, by the regions of `delivered` and `readEnd`: each clause is one of them. -/
theorem memReadByRegion : Obligations.MemReadByRegion := by
  intro s a ha
  refine ⟨?input, ?exhausted, ?outputPort, ?cell, ?outside⟩
  case input =>
    intro c rest hport hinput
    exact memRead_delivers ha (hinput ▸ delivered_input hport)
  case exhausted =>
    intro hport hinput
    exact memRead_ends ha (hinput ▸ readEnd_exhausted hport)
  case outputPort =>
    rintro rfl
    exact memRead_ends ha (readEnd_outputPort rfl)
  case cell =>
    intro h0 h1
    exact memRead_delivers ha (delivered_cell h0 h1)
  case outside =>
    intro hout
    exact memRead_ends ha (readEnd_outside hout)

/-! ### What phases 2 to 4 leave of memory -/

/-- The state a signal leaves, whether it completes or not. -/
def stateLeft {α : Type} (x : Signal α) (s : State) : State :=
  match x.run s with
  | .ok _ t => t
  | .error _ t => t

/-- Ending the run changes STATUS only, so memory is as the last signal left it. -/
theorem finish_mem {α : Type} {x : Signal α} {s t : State} (h : finish (x.run s) = .next t) :
    t.mem = (stateLeft x s).mem := by
  unfold stateLeft
  cases hrun : x.run s with
  | ok a u => rw [hrun] at h; cases h; rfl
  | error e u =>
    rw [hrun] at h
    cases e with
    | ends c => cases h; rfl
    | stuck f => cases h

section ExecuteStepsOnMemory
variable {t : State} {w : Word} (hw : t.memOut = some w)
include hw

theorem accumulate_mem {op : AluOp} (hop : op ≠ .cmp) : (stateLeft (accumulate op) t).mem = t.mem := by
  cases hv : w.arg with
  | none => simp only [stateLeft, accumulate_noArg hw hv]
  | some v =>
    cases ha : t.acc with
    | none => simp only [stateLeft, accumulate_noAcc hw hv ha]
    | some a =>
      by_cases hz : op.divides = true ∧ v = 0
      · obtain ⟨hdiv, rfl⟩ := hz
        simp only [stateLeft, accumulate_divZero hw hv ha hdiv]
      · simp only [stateLeft, accumulate_run hop hw hv ha fun hdiv hv0 => hz ⟨hdiv, hv0⟩]

theorem compareAcc_mem : (stateLeft compareAcc t).mem = t.mem := by
  cases hv : w.arg with
  | none => simp only [stateLeft, compareAcc_noArg hw hv]
  | some v =>
    cases ha : t.acc with
    | none => simp only [stateLeft, compareAcc_noAcc hw hv ha]
    | some a => simp only [stateLeft, compareAcc_run hw hv ha]

theorem loadAcc_mem : (stateLeft loadAcc t).mem = t.mem := by
  cases hv : w.arg <;> simp only [stateLeft, loadAcc_run hw, hv]

theorem jump_mem : (stateLeft jump t).mem = t.mem := by
  cases hv : w.arg <;> simp only [stateLeft, jump_run hw, hv]

theorem branchZero_mem : (stateLeft branchZero t).mem = t.mem := by
  match hz : t.alu.zero with
  | none => simp only [stateLeft, branchZero_run hw, hz]
  | some false => simp only [stateLeft, branchZero_run hw, hz]
  | some true => cases hv : w.arg <;> simp only [stateLeft, branchZero_run hw, hz, hv]

end ExecuteStepsOnMemory

theorem phaseEnd_mem {i : Instr} {n : Int} {s t : State} {m : Mode} {c : Terminal} (h : PhaseEnd i n s m c t) :
    t.mem = s.mem := by
  cases h <;> rfl

/-- Phases 2 and 3 keep memory, so an operand instruction does where its execute step does. -/
theorem runOperand_mem {i : Instr} {m : Mode} {n : Int} {body : Signal Unit} {s t : State}
    (hn : (encode i).arg = some n)
    (hbody : ∀ {u : State} {w : Word}, u.memOut = some w → (stateLeft body u).mem = u.mem)
    (h : runOperand i m body s = .next t) : t.mem = s.mem := by
  rcases operandPhases_cases i m n s hn with ⟨o, ho, -⟩ | ⟨c, u, hend, -⟩
  · have hkept : (stateLeft body (afterPhases i m o s)).mem = s.mem := hbody (afterPhases_memOut ..)
    rw [runOperand_reads body hn ho] at h
    rw [← hkept]
    cases hrun : body.run (afterPhases i m o s) with
    | ok x u =>
      simp only [hrun] at h
      cases h
      simp only [stateLeft, hrun]
    | error e u =>
      simp only [hrun] at h
      exact finish_mem (x := body) (hrun ▸ h)
  · rw [runOperand_phaseEnd body hn hend] at h
    cases h
    exact (State.endRun_mem ..).trans (phaseEnd_mem hend)

/-- A word without an addressing mode only reads before its execute step. -/
theorem runNone_mem {i : Instr} {body : Signal Unit} {s t : State} (hbody : ∀ u, (stateLeft body u).mem = u.mem)
    (h : runNone i body s = .next t) : t.mem = s.mem := by
  rw [runNone, EStateM.run_bind] at h
  rcases nonePhases_cases i s with ⟨w, rest, k, -, -, hrun⟩ | ⟨c, -, hrun⟩
  · simp only [hrun] at h
    exact (finish_mem h).trans (hbody _)
  · simp only [hrun] at h
    cases h
    rfl

/-- No instruction but ST writes memory (spec/20_memory.md R57: `MemWrite` is ST's alone). -/
theorem exec_keeps_mem {i : Instr} {s t : State} (hi : ∀ m n, i ≠ .st m n) (h : exec i s = .next t) :
    t.mem = s.mem := by
  cases i with
  | add m n => exact runOperand_mem rfl (accumulate_mem (op := .add) · nofun) h
  | sub m n => exact runOperand_mem rfl (accumulate_mem (op := .sub) · nofun) h
  | mul m n => exact runOperand_mem rfl (accumulate_mem (op := .mul) · nofun) h
  | div m n => exact runOperand_mem rfl (accumulate_mem (op := .div) · nofun) h
  | mod m n => exact runOperand_mem rfl (accumulate_mem (op := .mod) · nofun) h
  | cmp m n => exact runOperand_mem rfl compareAcc_mem h
  | ld m n => exact runOperand_mem rfl loadAcc_mem h
  | st m n => exact absurd rfl (hi m n)
  | jmp m n => exact runOperand_mem rfl jump_mem h
  | jz m n => exact runOperand_mem rfl branchZero_mem h
  | hlt arg => exact runNone_mem (fun _ => rfl) h
  | var v => exact runNone_mem (fun _ => rfl) h

/-! ### The address of a store -/

/-- The address of an ST is the argument of its operand word (spec/41_sequencer.md R136). -/
theorem storeAddress_eq_some {m : Mode} {n : Int} {s : State} {b : Int} :
    storeAddress m n s = some b ↔ ∃ o, operandRead (encode (.st m n)) m n s = some o ∧ o.word.arg = some b := by
  unfold storeAddress
  rw [EStateM.run_bind]
  cases ho : operandRead (encode (.st m n)) m n s with
  | some o =>
    simp only [operandPhases_reads (i := .st m n) rfl ho, memOutArg_run, afterPhases_memOut, argOf_some]
    cases hv : o.word.arg <;> simp [hv]
  | none =>
    rcases operandPhases_cases (.st m n) m n s rfl with ⟨o, ho', -⟩ | ⟨c, t, -, hrun⟩
    · simp [ho] at ho'
    · simp [hrun]

/-- A store at a general-purpose address always completes (spec/20_memory.md R60). -/
theorem exec_st_cell {m : Mode} {n : Int} {s : State} {b a : Int} (haddr : storeAddress m n s = some b)
    (hb : Statements.generalPurpose b) (ha : s.acc = some a) :
    ∃ o, exec (.st m n) s = .next (State.completed { afterPhases (.st m n) m o s with
      ar := some b
      alu := Alu.computed 0 a a
      mem := s.mem.write b.toNat (Word.data a)
      pc := s.pc + 1 }) := by
  obtain ⟨o, ho, hv⟩ := storeAddress_eq_some.mp haddr
  refine ⟨o, ?_⟩
  rw [exec_st_writes ho hv ha (writeEnd_cell hb.1 hb.2), written_cell _ a hb.2]
  rfl

/-- All that an ST can do to memory: nothing, or ACC's value as a data word at its address. -/
theorem exec_st_mem {m : Mode} {n : Int} {s t : State} (h : exec (.st m n) s = .next t) :
    t.mem = s.mem ∨ ∃ b a, storeAddress m n s = some b ∧ Statements.generalPurpose b ∧ s.acc = some a ∧
      t.mem = s.mem.write b.toNat (Word.data a) := by
  rcases operandPhases_cases (.st m n) m n s rfl with ⟨o, ho, -⟩ | ⟨c, u, hend, -⟩
  · cases hv : o.word.arg with
    | none => rw [exec_st_noArg ho hv] at h; cases h; exact .inl rfl
    | some b =>
      cases ha : s.acc with
      | none => rw [exec_st_noAcc ho hv ha] at h; cases h; exact .inl rfl
      | some a =>
        cases hw : writeEnd b a with
        | some c => rw [exec_st_writeEnd ho hv ha hw] at h; cases h; exact .inl rfl
        | none =>
          rw [exec_st_writes ho hv ha hw] at h
          cases h
          by_cases hport : b = Config.outputPort
          · exact .inl (if_pos hport)
          · have haddr := storeAddress_eq_some.mpr ⟨o, ho, hv⟩
            exact .inr ⟨b, a, haddr, writeEnd_none_range hw hport, rfl, if_neg hport⟩
  · rw [exec_st, runOperand_phaseEnd storeAcc rfl hend] at h
    cases h
    exact .inl ((State.endRun_mem ..).trans (phaseEnd_mem hend))

/-! ### One step on memory -/

/-- What a program can do to memory between two states: nothing, or one cell replaced by a data word. -/
def StoresData (m m' : Memory) : Prop := m' = m ∨ ∃ b v, m' = m.write b (Word.data v)

/-- The cell written reads as the data word, every other cell as before (spec/20_memory.md R68). -/
theorem StoresData.read {m m' : Memory} (h : StoresData m m') (b : Nat) :
    m'.read b = m.read b ∨ ∃ v, m'.read b = Word.data v := by
  rcases h with rfl | ⟨c, v, rfl⟩
  · exact .inl rfl
  · rw [Memory.read_write]
    by_cases hb : b = c
    · exact .inr ⟨v, if_pos hb⟩
    · exact .inl (if_neg hb)

theorem exec_mem {i : Instr} {s t : State} (h : exec i s = .next t) : StoresData s.mem t.mem := by
  by_cases hi : ∃ m n, i = .st m n
  · obtain ⟨m, n, rfl⟩ := hi
    exact (exec_st_mem h).imp_right fun ⟨b, a, _, _, _, hmem⟩ => ⟨b.toNat, a, hmem⟩
  · exact .inl (exec_keeps_mem (fun m n hst => hi ⟨m, n, hst⟩) h)

theorem instructionCycle_mem {s t : State} (h : instructionCycle s = .next t) : StoresData s.mem t.mem := by
  unfold instructionCycle at h
  rcases fetch_cases s with ⟨w, rest, -, hrun⟩ | ⟨c, -, hrun⟩
  · simp only [hrun] at h
    cases hdec : decode w with
    | error e => simp only [hdec] at h; cases h
    | ok i => simp only [hdec] at h; exact (exec_mem h :)
  · simp only [hrun] at h
    cases h
    exact .inl rfl

theorem step_mem {s t : State} (h : step s = .next t) : StoresData s.mem t.mem := by
  cases hstatus : s.status with
  | ended c => rw [step_of_ended hstatus] at h; cases h; exact .inl rfl
  | running =>
    by_cases hcap : s.cycles = Config.iterationCap
    · rw [step_of_cap hstatus hcap] at h; cases h; exact .inl rfl
    · rw [step_of_cycle hstatus hcap] at h; exact (instructionCycle_mem h :)

/-- Settles O43: all that a step can do to memory is `StoresData`. -/
theorem stepStoresOnlyData : Obligations.StepStoresOnlyData :=
  fun _ _ b h => (step_mem h).read b

/-! ### The fetch of a stored cell -/

/-- VAR at a general-purpose PC, for either value of OPERAND_FETCH_ON_NONE (spec/44_control.md R183). -/
theorem exec_var_cell {v : Int} {s : State} (hpc : Statements.generalPurpose s.pc) :
    exec (.var v) s = .next ((afterNone (.var v) s).endRun (.fault (.varExecuted s.pc v))) := by
  show runNone (.var v) (dataExecuted v) s = _
  rw [runNone, EStateM.run_bind, nonePhases_run hpc.1 hpc.2]
  rfl

/-- A cycle that fetches a data word from a cell ends the run there (spec/60_exceptions.md R206). -/
theorem step_data_cell {s : State} {v : Int} (hcycle : Statements.runsCycle s) (hpc : Statements.generalPurpose s.pc)
    (hcell : s.mem.read s.pc.toNat = Word.data v) :
    ∃ u, step s = .next u ∧ u.status = .ended (.fault (.varExecuted s.pc v)) ∧ u.pc = s.pc := by
  have hdec : decode (s.mem.read s.pc.toNat) = .ok (.var v) := by rw [hcell]; rfl
  exact ⟨_, (step_of_decode hcycle hpc hdec).trans (exec_var_cell hpc), rfl, rfl⟩

/-- Settles O46: the store leaves its data word in the cell, and the cycle after it fetches that word. -/
theorem storedCellFaultsWhenFetched : Obligations.StoredCellFaultsWhenFetched := by
  intro s t m n a b h _ htrunning ha haddr hb hcap
  have hcell : Statements.generalPurpose b := ⟨Int.natCast_nonneg b, Int.ofNat_lt.mpr hb⟩
  obtain ⟨o, hst⟩ := exec_st_cell haddr hcell ha
  cases h.symm.trans hst
  refine step_data_cell ⟨htrunning, hcap⟩ hcell ?_
  show (s.mem.write (b : Int).toNat (Word.data a)).read (b : Int).toNat = Word.data a
  rw [Memory.read_write, if_pos rfl]

end Sys2Proof.Machine
end

section
/-! PROOFS of the family Encoding (O1, O2, O3) and of what the step rests on it (O42). One fact carries the family:
`decode_cases` says that a word is the word of the instruction decoded from it, or fails the check its refusal names. A
word that passes every check is therefore not refused (`exists_decode_of_wf`), and memory under the invariant holds no
other. -/

namespace Sys2Proof

/-! ### Decoding and encoding -/

/-- The check of spec/30_encoding.md R86 that a refusal names. -/
def Word.check (w : Word) : IllFormed → Bool
  | .operandModeGiven => w.operandModeGiven
  | .operandArgGiven => w.operandArgGiven
  | .noModeOnHlt => w.noModeOnHlt
  | .dataShape => w.dataShape

/-- Everything decoding can do, by the formats N, D and O (spec/30_encoding.md R83 to R85). -/
theorem decode_cases (w : Word) :
    (∃ i, decode w = .ok i ∧ encode i = w) ∨ (∃ c, decode w = .error c ∧ w.check c = false) := by
  obtain ⟨op, arg, mode⟩ := w
  cases op with
  | hlt =>
    cases mode with
    | none => exact .inl ⟨_, rfl, rfl⟩
    | some m => exact .inr ⟨_, rfl, rfl⟩
  | var =>
    cases mode with
    | some m => exact .inr ⟨_, rfl, rfl⟩
    | none =>
      cases arg with
      | none => exact .inr ⟨_, rfl, rfl⟩
      | some v => exact .inl ⟨_, rfl, rfl⟩
  | _ =>
    cases mode with
    | none => exact .inr ⟨_, rfl, rfl⟩
    | some m =>
      cases arg with
      | none => exact .inr ⟨_, rfl, rfl⟩
      | some n => exact .inl ⟨_, rfl, rfl⟩

/-- The opcode map read backwards (spec/30_encoding.md R88). -/
theorem decode_encode (i : Instr) : decode (encode i) = .ok i := by
  cases i <;> rfl

/-- No field of the record is dropped. -/
theorem encode_of_decode {w : Word} {i : Instr} (h : decode w = .ok i) : encode i = w := by
  obtain ⟨j, hdec, henc⟩ | ⟨c, hdec, -⟩ := decode_cases w
  · cases h.symm.trans hdec; exact henc
  · cases h.symm.trans hdec

theorem check_of_decode_error {w : Word} {c : IllFormed} (h : decode w = .error c) : w.check c = false := by
  obtain ⟨i, hdec, -⟩ | ⟨d, hdec, hcheck⟩ := decode_cases w
  · cases h.symm.trans hdec
  · cases h.symm.trans hdec; exact hcheck

/-! ### Well-formed words -/

theorem Word.check_of_wf {w : Word} (h : w.wf = true) (c : IllFormed) : w.check c = true := by
  simp only [Word.wf, Bool.and_eq_true] at h
  obtain ⟨⟨⟨hmode, harg⟩, hhlt⟩, hdata⟩ := h
  cases c with
  | operandModeGiven => exact hmode
  | operandArgGiven => exact harg
  | noModeOnHlt => exact hhlt
  | dataShape => exact hdata

/-- The converse of `Machine.decode_ok_wf`. -/
theorem exists_decode_of_wf {w : Word} (h : w.wf = true) : ∃ i, decode w = .ok i := by
  obtain ⟨i, hdec, -⟩ | ⟨c, -, hfails⟩ := decode_cases w
  · exact ⟨i, hdec⟩
  · exact absurd (hfails.symm.trans (Word.check_of_wf h c)) Bool.false_ne_true

/-- Format O is the ten opcodes spec/30_encoding.md R83 lists. -/
theorem Opcode.takesOperand_iff (op : Opcode) :
    op.takesOperand = true ↔ op ∈ [Opcode.add, .sub, .mul, .div, .mod, .cmp, .ld, .st, .jmp, .jz] := by
  cases op <;> decide

/-- The model's checks are those of spec/30_encoding.md R86 as the statements spell them out. -/
theorem checksHold_iff_wf (w : Word) : Statements.checksHold w ↔ w.wf = true := by
  obtain ⟨op, arg, mode⟩ := w
  simp only [Statements.checksHold, ← Opcode.takesOperand_iff, Word.wf, Word.operandModeGiven, Word.operandArgGiven,
    Word.noModeOnHlt, Word.dataShape]
  cases op <;> simp [Opcode.takesOperand, Option.isSome_iff_ne_none]

/-! ### The family's statements -/

/-- Settles O1: each sample is the word of the instruction it stands for. -/
theorem sampleWordsDecode : Obligations.SampleWordsDecode :=
  ⟨decode_encode (.add .imm 10), decode_encode (.mod .dir (-7)), decode_encode (.st .ind 4), decode_encode (.jz .imm 8),
    decode_encode (.hlt none), decode_encode (.hlt (some 9)), decode_encode (.var 77)⟩

/-- Settles O2: decoding undoes encoding by instruction, encoding undoes decoding by the cases of a decode. -/
theorem decodeEncodeInverse : Obligations.DecodeEncodeInverse :=
  ⟨fun i => ⟨decode_encode i, (checksHold_iff_wf _).mpr (Machine.encode_wf i)⟩, fun _ _ => encode_of_decode⟩

/-- Settles O3: a word that decodes is well formed, a well-formed one is not refused, and a refusal names its check. -/
theorem decodeRefusesExactlyIllFormed : Obligations.DecodeRefusesExactlyIllFormed := by
  intro w
  have hwf : (∃ i, decode w = .ok i) ↔ w.wf = true := ⟨fun ⟨_, h⟩ => Machine.decode_ok_wf h, exists_decode_of_wf⟩
  exact ⟨hwf.trans (checksHold_iff_wf w).symm,
    check_of_decode_error, check_of_decode_error, check_of_decode_error, check_of_decode_error⟩

end Sys2Proof

namespace Sys2Proof.Machine

/-! ### No word fetched is refused -/

/-- A cycle over well-formed words ends at the fetch by a terminal condition, or executes the word fetched. -/
theorem instructionCycle_next {s : State} (hmem : ∀ c ∈ s.mem, c.2.wf = true) : ∃ t, instructionCycle s = .next t := by
  rcases fetch_cases s with ⟨w, rest, hd, hrun⟩ | ⟨c, -, hrun⟩
  · obtain ⟨i, hdec⟩ := exists_decode_of_wf (delivered_wf hmem hd)
    simp only [instructionCycle, hrun, hdec]
    exact execAlwaysAnswersNext i _
  · simp only [instructionCycle, hrun]
    exact ⟨_, rfl⟩

/-- Settles O42, along the driver's loop: only a cycle could stop, and under the invariant it does not. -/
theorem stepNeverStopsOutsideStatus : Obligations.StepNeverStopsOutsideStatus := by
  intro s hinv
  cases hstatus : s.status with
  | ended c => exact ⟨s, step_of_ended hstatus⟩
  | running =>
    by_cases hcap : s.cycles = Config.iterationCap
    · exact ⟨_, step_of_cap hstatus hcap⟩
    · rw [step_of_cycle hstatus hcap]
      exact instructionCycle_next hinv.wordsWellFormed

end Sys2Proof.Machine
end

section
/-! PROOFS of the family ALU (O7, O8, O9, O10). The model divides by Lean's `Int.fdiv`, the spec by the floor of a
rational quotient; `fdiv_eq_floor` says they agree. So `compute`, whose cases are `compute_run`, commits the exact
result. -/

namespace Sys2Proof.Machine

/-! ### Floor division and floor modulo -/

/-- Lean's floor division is the floor of the quotient in ℚ (spec/40_alu.md R107). The library relates the floor to
division by a natural number; a negative divisor is brought to that by negating both operands. Both sides are 0 where
`l = 0`. -/
theorem fdiv_eq_floor (r l : Int) : fdiv r l = ⌊(r : ℚ) / (l : ℚ)⌋ := by
  have hnat (x : Int) (n : Nat) : Int.fdiv x n = ⌊(x : ℚ) / (n : ℚ)⌋ := by
    rw [Rat.floor_intCast_div_natCast, Int.fdiv_eq_ediv_of_nonneg x (Int.natCast_nonneg n)]
  obtain ⟨n, rfl | rfl⟩ := l.eq_nat_or_neg
  · exact hnat r n
  · calc fdiv r (-n) = Int.fdiv (-r) n := by rw [fdiv, ← Int.neg_fdiv_neg, neg_neg]
      _ = ⌊((-r : Int) : ℚ) / (n : ℚ)⌋ := hnat (-r) n
      _ = ⌊(r : ℚ) / ((-n : Int) : ℚ)⌋ := by push_cast; rw [neg_div, div_neg]

/-- The model's floor modulo is Lean's, whose range lemmas then speak of it. -/
theorem fmod_eq_int_fmod (r l : Int) : fmod r l = Int.fmod r l := (Int.fmod_def r l).symm

theorem fdiv_mul_add_fmod (r l : Int) : fdiv r l * l + fmod r l = r := by
  rw [fmod_eq_int_fmod]
  exact Int.fdiv_mul_add_fmod r l

theorem fmod_range_of_pos (r : Int) {l : Int} (hl : 0 < l) : 0 ≤ fmod r l ∧ fmod r l < l := by
  rw [fmod_eq_int_fmod]
  exact ⟨Int.fmod_nonneg_of_pos r hl, Int.fmod_lt_of_pos r hl⟩

/-- Negating both operands negates the modulo, so the range of a positive divisor is mirrored. -/
theorem fmod_range_of_neg (r : Int) {l : Int} (hl : l < 0) : l < fmod r l ∧ fmod r l ≤ 0 := by
  have hmirror : fmod (-r) (-l) = -fmod r l := by
    simp only [fmod_eq_int_fmod, Int.neg_fmod_neg]
  obtain ⟨hlow, hhigh⟩ := fmod_range_of_pos (-r) (neg_pos.mpr hl)
  rw [hmirror] at hlow hhigh
  omega

/-- Settles O7: the quotient is the floor, and the sign of the divisor decides the range of the modulo. -/
theorem floorDivisionAndModulo : Obligations.FloorDivisionAndModulo := by
  intro r l _
  refine ⟨fdiv_eq_floor r l, ?_, fdiv_mul_add_fmod r l, fmod_range_of_pos r, fmod_range_of_neg r⟩
  rw [← fdiv_eq_floor, fmod]

/-- Settles O8: twelve closed equations, evaluated by the model's own `fdiv` and `fmod`. -/
theorem divisionTable : Obligations.DivisionTable := by
  unfold Obligations.DivisionTable
  decide

/-! ### `compute` -/

/-- The two operations of spec/40_alu.md R110. -/
theorem AluOp.divides_iff (op : AluOp) : op.divides = true ↔ op = .div ∨ op = .mod := by
  cases op <;> decide

/-- What `compute` commits is the exact result of spec/40_alu.md R104 to R109. -/
theorem aluResult_eq_exactResult (op : AluOp) (r l : Int) : aluResult op r l = Statements.exactResult op r l := by
  cases op with
  | div => exact fdiv_eq_floor r l
  | mod => exact congrArg (r - l * ·) (fdiv_eq_floor r l)
  | add | sub | mul | cmp => rfl

/-- All five ALU registers after a commit over selected operands (spec/40_alu.md R103). -/
theorem Alu.commit_eq {alu : Alu} {l r : Int} (hl : alu.left = some l) (hr : alu.right = some r) (op : AluOp) (x : Int) :
    alu.commit op x =
      ⟨some l, some r, if op = .cmp then alu.out else some x, some (decide (x = 0)), some (decide (x < 0))⟩ := by
  rw [← hl, ← hr]
  rfl

/-- Settles O9: the two clauses are the two branches of `compute_run`. -/
theorem computeWritesResultAndFlags : Obligations.ComputeWritesResultAndFlags := by
  intro op s l r hl hr
  rw [compute_run op hl hr, ← AluOp.divides_iff]
  refine ⟨fun hzero => if_pos hzero, fun hnonzero => ?_⟩
  rw [if_neg hnonzero, aluResult_eq_exactResult, Alu.commit_eq hl hr]

/-! ### The selections -/

/-- The pass-through of spec/40_alu.md R111: with the left operand disabled, ADD copies the right operand to ALU.out. -/
theorem passThrough_run (v x : Int) (s : State) :
    (do selectLeft v false; selectRight x true; compute .add : Signal Unit).run s =
      .ok () { s with alu := Alu.computed 0 x x } := by
  simp only [EStateM.run_bind, selectLeft_run, selectRight_run]
  rw [compute_run .add (l := 0) (r := x) rfl rfl, if_neg (fun hzero => Bool.noConfusion hzero.1),
    Alu.commit_eq (l := 0) (r := x) rfl rfl, show aluResult .add x 0 = x from Int.add_zero x]
  rfl

/-- Settles O10: the laws of the two selections, and the pass-through they make of ADD. -/
theorem selectAndPassThrough : Obligations.SelectAndPassThrough :=
  fun v x en s => ⟨selectLeft_run v en s, selectRight_run v en s, passThrough_run v x s⟩

end Sys2Proof.Machine
end

section
/-! PROOFS of the family Sequencer: the latch signals (O13), the fetch (O14), one step as the run of the word fetched
(O31), and the counters of a cycle (O35, O36). The execute step of every operand instruction ticks once where it
completes (`TicksOnce`). A whole cycle therefore has two ends, `CycleTo`: it completes, is counted and has its mode's
ticks, or it ends the run and is not counted. -/

namespace Sys2Proof.Machine

/-! ### The latch signals -/

theorem latchACC_pc (s : State) : (latchAccumulator .pc).run s = .ok () { s with acc := some s.pc } := rfl

theorem latchAR_alu {s : State} {v : Int} (h : s.alu.out = some v) :
    (latchAddressRegister .alu).run s = .ok () { s with ar := some v } := by
  simp [latchAddressRegister, latchValue, readAluOut, h]

/-- Settles O13, source by source; what the source MEM_OUT gives is `argOf`'s to say. -/
theorem latchSignalsFromEachSource : Obligations.LatchSignalsFromEachSource := by
  intro s
  refine ⟨latchAR_pc s, latchACC_pc s, fun x hx => ⟨latchAR_alu hx, latchACC_alu hx⟩, ?argument, ?noArgument, ?noWord⟩
  case argument =>
    intro w v hw hv
    rw [latchAR_mem, latchACC_mem, argOf_value hw hv]
    exact ⟨rfl, rfl⟩
  case noArgument =>
    intro w hw hv
    rw [latchAR_mem, latchACC_mem, argOf_absent hw hv]
    exact ⟨rfl, rfl⟩
  case noWord =>
    intro hw
    rw [latchAR_mem, latchACC_mem, hw, argOf_none]
    exact ⟨rfl, rfl⟩

/-! ### The fetch -/

/-- Settles O14, by the regions of `delivered` and `readEnd` at PC. -/
theorem fetchByRegion : Obligations.FetchByRegion := by
  intro s
  refine ⟨?cell, ?input, ?exhausted, ?outputPort, ?outside⟩
  case cell =>
    intro h0 h1
    exact fetch_delivers (delivered_cell h0 h1)
  case input =>
    intro c rest hport hinput
    rw [fetch_delivers (s := s) (hinput ▸ delivered_input hport), hport]
  case exhausted =>
    intro hport hinput
    rw [fetch_ends (s := s) (hinput ▸ readEnd_exhausted hport), hport]
  case outputPort =>
    intro hport
    rw [fetch_ends (readEnd_outputPort hport), hport]
  case outside =>
    intro hout
    exact fetch_ends (readEnd_outside hout)

/-- Settles O31: the word fetched is the word of the instruction decoded from it. -/
theorem stepRunsFetchedInstruction : Obligations.StepRunsFetchedInstruction := by
  intro s i hcycle hpc hdec
  rw [step_of_decode hcycle hpc hdec, encode_of_decode hdec]
  rfl

/-! ### The execute steps: one tick each (spec/41_sequencer.md R124) -/

/-- What an execute step run from `s` does to the counters and STATUS: where it completes it has ticked once and the run
goes on; INSTRS it leaves alone whether it completes or not. -/
def TicksOnce (s : State) : EStateM.Result Stop State Unit → Prop
  | .ok _ t => t.ticks = s.ticks + 1 ∧ t.instrs = s.instrs ∧ t.status = s.status
  | .error _ t => t.instrs = s.instrs

/-- What an execute step finds that reads the operand value and then the accumulator, in that order. -/
theorem operand_acc_cases (w : Word) (t : State) :
    w.arg = none ∨ (∃ v, w.arg = some v ∧ t.acc = none) ∨ (∃ v a, w.arg = some v ∧ t.acc = some a) := by
  cases w.arg <;> cases t.acc <;> simp

section ExecuteStepsTickOnce
variable {t : State} {w : Word} (hw : t.memOut = some w)
include hw

theorem accumulate_ticksOnce {op : AluOp} (hop : op ≠ .cmp) : TicksOnce t ((accumulate op).run t) := by
  rcases operand_acc_cases w t with hv | ⟨v, hv, ha⟩ | ⟨v, a, hv, ha⟩
  · rw [accumulate_noArg hw hv]; exact rfl
  · rw [accumulate_noAcc hw hv ha]; exact rfl
  · by_cases hz : op.divides = true ∧ v = 0
    · obtain ⟨hdiv, rfl⟩ := hz
      rw [accumulate_divZero hw hv ha hdiv]; exact rfl
    · rw [accumulate_run hop hw hv ha fun hdiv hv0 => hz ⟨hdiv, hv0⟩]; exact ⟨rfl, rfl, rfl⟩

theorem compareAcc_ticksOnce : TicksOnce t (compareAcc.run t) := by
  rcases operand_acc_cases w t with hv | ⟨v, hv, ha⟩ | ⟨v, a, hv, ha⟩
  · rw [compareAcc_noArg hw hv]; exact rfl
  · rw [compareAcc_noAcc hw hv ha]; exact rfl
  · rw [compareAcc_run hw hv ha]; exact ⟨rfl, rfl, rfl⟩

theorem loadAcc_ticksOnce : TicksOnce t (loadAcc.run t) := by
  rw [loadAcc_run hw]
  cases w.arg with
  | none => exact rfl
  | some v => exact ⟨rfl, rfl, rfl⟩

theorem storeAcc_ticksOnce : TicksOnce t (storeAcc.run t) := by
  rcases operand_acc_cases w t with hv | ⟨v, hv, ha⟩ | ⟨v, a, hv, ha⟩
  · rw [storeAcc_noArg hw hv]; exact rfl
  · rw [storeAcc_noAcc hw hv ha]; exact rfl
  · rw [storeAcc_run hw hv ha]
    cases writeEnd v a with
    | some c => exact rfl
    | none => exact ⟨rfl, rfl, rfl⟩

theorem jump_ticksOnce : TicksOnce t (jump.run t) := by
  rw [jump_run hw]
  cases w.arg with
  | none => exact rfl
  | some v => exact ⟨rfl, rfl, rfl⟩

theorem branchZero_ticksOnce : TicksOnce t (branchZero.run t) := by
  rw [branchZero_run hw]
  match t.alu.zero, w.arg with
  | none, _ => exact rfl
  | some false, _ => exact ⟨rfl, rfl, rfl⟩
  | some true, none => exact rfl
  | some true, some v => exact ⟨rfl, rfl, rfl⟩

end ExecuteStepsTickOnce

/-- An operand instruction is phases 2 and 3, an execute step that ticks once, and the count. -/
theorem exec_eq_runOperand {i : Instr} {m : Mode} {n : Int} (hi : Statements.operandOf i = some (m, n)) :
    (encode i).arg = some n ∧ ∃ body : Signal Unit, (∀ t w, t.memOut = some w → TicksOnce t (body.run t)) ∧
      ∀ s, exec i s = runOperand i m body s := by
  cases i with
  | hlt | var => cases hi
  | add | sub | mul | div | mod =>
    cases hi; exact ⟨rfl, accumulate _, fun _ _ hw => accumulate_ticksOnce hw (by decide), fun _ => rfl⟩
  | cmp => cases hi; exact ⟨rfl, _, fun _ _ hw => compareAcc_ticksOnce hw, fun _ => rfl⟩
  | ld => cases hi; exact ⟨rfl, _, fun _ _ hw => loadAcc_ticksOnce hw, fun _ => rfl⟩
  | st => cases hi; exact ⟨rfl, _, fun _ _ hw => storeAcc_ticksOnce hw, fun _ => rfl⟩
  | jmp => cases hi; exact ⟨rfl, _, fun _ _ hw => jump_ticksOnce hw, fun _ => rfl⟩
  | jz => cases hi; exact ⟨rfl, _, fun _ _ hw => branchZero_ticksOnce hw, fun _ => rfl⟩

/-- HLT and VAR are phases 2 and 3 and an execute step that ends the run. -/
theorem exec_eq_runNone {i : Instr} (hi : Statements.operandOf i = none) :
    ∃ (body : Signal Unit) (c : State → Terminal), (∀ u, body.run u = .error (.ends (c u)) u) ∧
      ∀ s, exec i s = runNone i body s := by
  cases i with
  | hlt arg => exact ⟨stop .halted, fun _ => .halted, fun _ => rfl, fun _ => rfl⟩
  | var v => exact ⟨dataExecuted v, fun u => .fault (.varExecuted u.pc v), fun _ => rfl, fun _ => rfl⟩
  | _ => cases hi

/-! ### The two ends of a cycle -/

/-- From `s` to `t` the rest of a cycle has run: it completed in `k` ticks and is counted in INSTRS, or it ended the run
and is not (spec/41_sequencer.md R134). -/
inductive CycleTo (k : Nat) (s t : State) : Prop
  | completed (hstatus : t.status = s.status) (hticks : t.ticks = s.ticks + k) (hinstrs : t.instrs = s.instrs + 1)
  | ended (c : Terminal) (hstatus : t.status = .ended c) (hinstrs : t.instrs = s.instrs)

theorem phaseEnd_instrs {i : Instr} {n : Int} {s t : State} {m : Mode} {c : Terminal} (h : PhaseEnd i n s m c t) :
    t.instrs = s.instrs := by
  cases h <;> rfl

/-- Phases 2 and 3 tick once for each read (spec/70_reset_and_hazards.md R242), the execute step once more. -/
theorem runOperand_cycle {i : Instr} {m : Mode} {n : Int} {body : Signal Unit} {s t : State}
    (hn : (encode i).arg = some n) (hbody : ∀ t w, t.memOut = some w → TicksOnce t (body.run t))
    (h : runOperand i m body s = .next t) : CycleTo (phaseTicks m + 1) s t := by
  rcases operandPhases_cases i m n s hn with ⟨o, ho, -⟩ | ⟨c, u, hend, -⟩
  · have honce := hbody (afterPhases i m o s) o.word rfl
    rw [runOperand_reads body hn ho] at h
    cases hrun : body.run (afterPhases i m o s) with
    | ok x u =>
      simp only [hrun] at h honce
      obtain ⟨hticks, hinstrs, hstatus⟩ := honce
      cases h
      exact .completed hstatus (hticks.trans (Nat.add_assoc ..)) (congrArg (· + 1) hinstrs)
    | error e u =>
      simp only [hrun] at h honce
      cases e with
      | ends c => cases h; exact .ended c rfl honce
      | stuck f => cases h
  · rw [runOperand_phaseEnd body hn hend] at h
    cases h
    exact .ended c rfl ((State.endRun_instrs ..).trans (phaseEnd_instrs hend))

/-- A word without an addressing mode ends the run, by its execute step or before it. -/
theorem runNone_cycle {i : Instr} {body : Signal Unit} {c : State → Terminal} {k : Nat} {s t : State}
    (hbody : ∀ u, body.run u = .error (.ends (c u)) u) (h : runNone i body s = .next t) : CycleTo k s t := by
  rw [runNone, EStateM.run_bind] at h
  rcases nonePhases_cases i s with ⟨w, rest, j, -, -, hrun⟩ | ⟨d, -, hrun⟩
  · simp only [hrun, hbody] at h
    cases h
    exact .ended _ rfl rfl
  · simp only [hrun] at h
    cases h
    exact .ended d rfl rfl

/-- Phases 2 to 4 of an operand instruction, with the ticks of its mode (spec/70_reset_and_hazards.md R241). -/
theorem exec_operand_cycle {i : Instr} {m : Mode} {n : Int} {s t : State} (hi : Statements.operandOf i = some (m, n))
    (h : exec i s = .next t) : CycleTo (phaseTicks m + 1) s t := by
  obtain ⟨hn, body, hbody, hexec⟩ := exec_eq_runOperand hi
  exact runOperand_cycle hn hbody (hexec s ▸ h)

/-- Phases 2 to 4 of every instruction have one of the two ends. -/
theorem exec_cycle {i : Instr} {s t : State} (h : exec i s = .next t) : ∃ k, CycleTo k s t := by
  cases hi : Statements.operandOf i with
  | some x => exact ⟨_, exec_operand_cycle hi h⟩
  | none =>
    obtain ⟨body, c, hbody, hexec⟩ := exec_eq_runNone hi
    exact ⟨0, runNone_cycle hbody (hexec s ▸ h)⟩

/-- HLT and VAR at a general-purpose PC, for either value of OPERAND_FETCH_ON_NONE (spec/41_sequencer.md R131). -/
theorem exec_none_cell {i : Instr} {s : State} (hi : Statements.operandOf i = none)
    (hpc : Statements.generalPurpose s.pc) : ∃ c, exec i s = .next ((afterNone i s).endRun c) := by
  obtain ⟨body, c, hbody, hexec⟩ := exec_eq_runNone hi
  refine ⟨c (afterNone i s), ?_⟩
  rw [hexec, runNone, EStateM.run_bind, nonePhases_run hpc.1 hpc.2]
  simp only [hbody, finish_ends]

/-! ### The counters of a whole cycle -/

/-- Settles O35: one tick for the fetch, then those `exec_operand_cycle` and `exec_none_cell` give. -/
theorem cycleTicksByMode : Obligations.CycleTicksByMode := by
  intro s t i hcycle hpc hdec h
  rw [step_of_decode hcycle hpc hdec] at h
  constructor
  · intro m n hi hrunning
    cases exec_operand_cycle hi h with
    | ended c hstatus _ => cases hrunning.symm.trans hstatus
    | completed _ hticks _ =>
      rw [hticks, fetched, Nat.add_assoc]
      cases m <;> rfl
  · intro hi
    obtain ⟨c, hnext⟩ := exec_none_cell (s := fetched (s.mem.read s.pc.toNat) s) hi hpc
    cases h.symm.trans hnext
    rw [State.endRun_ticks, afterNone_ticks, fetched, Nat.add_assoc]
    cases Config.operandFetchOnNone <;> rfl

/-- A whole cycle: the fetch ends the run, or the word fetched is executed. -/
theorem instructionCycle_cycle {s t : State} (h : instructionCycle s = .next t) : ∃ k, CycleTo k s t := by
  unfold instructionCycle at h
  rcases fetch_cases s with ⟨w, rest, -, hrun⟩ | ⟨c, -, hrun⟩
  · simp only [hrun] at h
    cases hdec : decode w with
    | error e => simp only [hdec] at h; cases h
    | ok i =>
      simp only [hdec] at h
      obtain ⟨k, hcycle⟩ := exec_cycle h
      cases hcycle with
      | completed hstatus hticks hinstrs =>
        exact ⟨1 + k, .completed hstatus (hticks.trans (Nat.add_assoc ..)) hinstrs⟩
      | ended c hstatus hinstrs => exact ⟨0, .ended c hstatus hinstrs⟩
  · simp only [hrun] at h
    cases h
    exact ⟨0, .ended c rfl rfl⟩

/-- Settles O36, by the two ends of a cycle. -/
theorem instrsCountsCompletedCycles : Obligations.InstrsCountsCompletedCycles := by
  intro s t ⟨hrun, hcap⟩ h
  rw [step_of_cycle hrun hcap] at h
  obtain ⟨k, hcycle⟩ := instructionCycle_cycle h
  cases hcycle with
  | completed hstatus _ hinstrs => rw [if_pos (hstatus.trans hrun)]; exact hinstrs
  | ended c hstatus hinstrs => rw [if_neg (by rw [hstatus]; exact Status.noConfusion)]; exact hinstrs

end Sys2Proof.Machine
end

section
/-! PROOFS of the family Arithmetic: what ADD, SUB, MUL, DIV, MOD and CMP do (O15, O16, O17) and what they leave
unchanged (O26, O27). The six differ in their execute step only (`RunsAs`), so each clause is proved once for an execute
step. The two faults of O15 to O17 belong to the selection of the operands, with which all six begin; the frames rest on
one inversion, `runOperand_runTo`. -/

namespace Sys2Proof.Machine

/-! ### The six instructions as execute steps -/

/-- The instructions `mk m n` are phases 2 and 3, the execute step `body`, and the count (spec/41_sequencer.md R132). -/
def RunsAs (mk : Mode → Int → Instr) (body : Signal Unit) : Prop :=
  ∀ m n, (encode (mk m n)).arg = some n ∧ ∀ s, exec (mk m n) s = runOperand (mk m n) m body s

theorem runsAs_add : RunsAs .add (accumulate .add) := fun _ _ => ⟨rfl, fun _ => rfl⟩
theorem runsAs_sub : RunsAs .sub (accumulate .sub) := fun _ _ => ⟨rfl, fun _ => rfl⟩
theorem runsAs_mul : RunsAs .mul (accumulate .mul) := fun _ _ => ⟨rfl, fun _ => rfl⟩
theorem runsAs_div : RunsAs .div (accumulate .div) := fun _ _ => ⟨rfl, fun _ => rfl⟩
theorem runsAs_mod : RunsAs .mod (accumulate .mod) := fun _ _ => ⟨rfl, fun _ => rfl⟩
theorem runsAs_cmp : RunsAs .cmp compareAcc := fun _ _ => ⟨rfl, fun _ => rfl⟩

section RunsAs
variable {mk : Mode → Int → Instr} {body : Signal Unit} {op : AluOp}

section Phase4
variable {m : Mode} {n : Int} {s t : State} {o : OperandRead} (h : RunsAs mk body)
  (ho : operandRead (encode (mk m n)) m n s = some o)
include h ho

/-- Where the operand is read and the execute step completes, the instruction is counted. -/
theorem RunsAs.exec_completes (hrun : body.run (afterPhases (mk m n) m o s) = .ok () t) :
    exec (mk m n) s = .next { t with instrs := t.instrs + 1 } := by
  obtain ⟨hn, hexec⟩ := h m n
  rw [hexec, runOperand_reads body hn ho, hrun]

/-- Where the operand is read and the execute step ends the run, nothing runs after it (spec/60_exceptions.md R212). -/
theorem RunsAs.exec_ends {c : Terminal} (hrun : body.run (afterPhases (mk m n) m o s) = .error (.ends c) t) :
    exec (mk m n) s = .next (t.endRun c) := by
  obtain ⟨hn, hexec⟩ := h m n
  rw [hexec, runOperand_reads body hn ho, hrun]
  rfl

end Phase4

/-- An execute step that begins with the selection of the operands has its two faults, in its order. -/
theorem RunsAs.operandThenAccFaults {rest : Signal Unit} (h : RunsAs mk (do selectOperands; rest)) :
    Statements.operandThenAccFaults mk := by
  intro m n s o ho
  constructor
  · intro hv
    refine h.exec_ends ho ?_
    rw [EStateM.run_bind, selectOperands_noArg (afterPhases_memOut ..) hv]
  · intro v hv ha
    refine h.exec_ends ho ?_
    rw [EStateM.run_bind, selectOperands_noAcc (afterPhases_memOut ..) hv ha]
    rfl

/-- An accumulating instruction computes the exact result, wherever its operation does not fail. -/
theorem RunsAs.accumulatesBy (h : RunsAs mk (accumulate op)) (hop : op ≠ .cmp) {ok : Int → Prop}
    (hok : ∀ v, ok v → op.divides = true → v ≠ 0) :
    Statements.accumulatesBy mk (Statements.exactResult op) ok := by
  intro m n s o v a ho hv ha hv_ok
  rw [← aluResult_eq_exactResult]
  exact h.exec_completes ho (accumulate_run hop (afterPhases_memOut ..) hv ha (hok v hv_ok))

theorem RunsAs.faultsOnZero (h : RunsAs mk (accumulate op)) (hop : op.divides = true) :
    Statements.faultsOnZero mk op :=
  fun _ _ _ _ _ ho hv ha => h.exec_ends ho (accumulate_divZero (afterPhases_memOut ..) hv ha hop)

end RunsAs

/-- Settles O15: none of the three operations divides, so every operand value is accepted. -/
theorem addSubMulExecute : Obligations.AddSubMulExecute :=
  ⟨⟨runsAs_add.accumulatesBy nofun fun _ _ => nofun, runsAs_add.operandThenAccFaults⟩,
    ⟨runsAs_sub.accumulatesBy nofun fun _ _ => nofun, runsAs_sub.operandThenAccFaults⟩,
    ⟨runsAs_mul.accumulatesBy nofun fun _ _ => nofun, runsAs_mul.operandThenAccFaults⟩⟩

/-- Settles O16: the two dividing operations, whose exact results are the floor functions over ℚ. -/
theorem divModExecute : Obligations.DivModExecute :=
  ⟨⟨runsAs_div.accumulatesBy nofun fun _ hv _ => hv, runsAs_div.faultsOnZero rfl,
      runsAs_div.operandThenAccFaults⟩,
    ⟨runsAs_mod.accumulatesBy nofun fun _ hv _ => hv, runsAs_mod.faultsOnZero rfl,
      runsAs_mod.operandThenAccFaults⟩⟩

/-- Settles O17: the flags of `a - v` are the comparisons of `a` with `v`. -/
theorem cmpExecutes : Obligations.CmpExecutes := by
  refine ⟨fun m n s o v a ho hv ha => ?_, runsAs_cmp.operandThenAccFaults⟩
  have hnext := runsAs_cmp.exec_completes ho (compareAcc_run (afterPhases_memOut ..) hv ha)
  simp only [sub_eq_zero, sub_neg] at hnext
  exact hnext

/-! ### What an operand instruction leaves unchanged -/

/-- From `s` to `t` an operand instruction `i` has run to one of its ends: phases 2 and 3 wrote AR, MEM_OUT, CUR, IN and
TICKS, the execute step made a change `R` allows, and STATUS and INSTRS are as that end sets them. -/
inductive RunTo (R : State → State → Prop) (i : Instr) (s t : State) : Prop
  | intro (a : Int) (w : Word) (rest : List Nat) (k : Nat) (u : State) (status : Status) (instrs : Nat)
      (hrest : rest <:+ s.input) (hbody : R (endedInPhases i a w rest k s) u)
      (ht : t = { u with status := status, instrs := instrs })

/-- Where phases 2 and 3 end the run, they have read from the front of the input only. -/
theorem phaseEnd_reads {i : Instr} {n : Int} {s t : State} {m : Mode} {c : Terminal} (h : PhaseEnd i n s m c t) :
    ∃ a w rest k, rest <:+ s.input ∧ t = endedInPhases i a w rest k s := by
  cases h with
  | dirRead | indRead => exact ⟨_, _, _, _, List.suffix_rfl, rfl⟩
  | indArg w rest h | indSecond w rest q c h => exact ⟨_, _, _, _, delivered_suffix h, rfl⟩

/-- Every end of an operand instruction, from what its execute step can leave; where phases 2 and 3 end the run, the
execute step has changed nothing. -/
theorem runOperand_runTo {R : State → State → Prop} {i : Instr} {m : Mode} {n : Int} {body : Signal Unit}
    {s t : State} (hn : (encode i).arg = some n) (hrefl : ∀ u, R u u)
    (hbody : ∀ {u : State} {w : Word}, u.memOut = some w → R u (stateLeft body u))
    (h : runOperand i m body s = .next t) : RunTo R i s t := by
  rcases operandPhases_cases i m n s hn with ⟨o, ho, -⟩ | ⟨c, u, hend, -⟩
  · have hleft : R (afterPhases i m o s) (stateLeft body (afterPhases i m o s)) := hbody (afterPhases_memOut ..)
    rw [runOperand_reads body hn ho] at h
    unfold stateLeft at hleft
    cases hrun : body.run (afterPhases i m o s) with
    | ok x u =>
      simp only [hrun] at h hleft
      cases h
      exact .intro _ _ _ _ u _ _ (operandRead_suffix ho) hleft rfl
    | error e u =>
      simp only [hrun] at h hleft
      cases e with
      | ends c => cases h; exact .intro _ _ _ _ u _ _ (operandRead_suffix ho) hleft rfl
      | stuck f => cases h
  · rw [runOperand_phaseEnd body hn hend] at h
    cases h
    obtain ⟨a, w, rest, k, hrest, rfl⟩ := phaseEnd_reads hend
    exact .intro a w rest k _ _ _ hrest (hrefl _) rfl

/-! ### The frames of the two execute steps -/

/-- Only ACC, the ALU, PC and TICKS differ. -/
def ChangesAccAndAlu (s t : State) : Prop :=
  ∃ acc alu pc ticks, t = { s with acc := acc, alu := alu, pc := pc, ticks := ticks }

/-- Only the ALU without ALU.out, PC and TICKS differ. -/
def ChangesAluButOut (s t : State) : Prop :=
  ∃ alu pc ticks, t = { s with alu := alu, pc := pc, ticks := ticks } ∧ alu.out = s.alu.out

section FramesOfExecuteSteps
variable {t : State} {w : Word} (hw : t.memOut = some w)
include hw

theorem accumulate_changes {op : AluOp} (hop : op ≠ .cmp) : ChangesAccAndAlu t (stateLeft (accumulate op) t) := by
  unfold stateLeft
  rcases operand_acc_cases w t with hv | ⟨v, hv, ha⟩ | ⟨v, a, hv, ha⟩
  · rw [accumulate_noArg hw hv]; exact ⟨_, _, _, _, rfl⟩
  · rw [accumulate_noAcc hw hv ha]; exact ⟨_, _, _, _, rfl⟩
  · by_cases hz : op.divides = true ∧ v = 0
    · obtain ⟨hdiv, rfl⟩ := hz
      rw [accumulate_divZero hw hv ha hdiv]; exact ⟨_, _, _, _, rfl⟩
    · rw [accumulate_run hop hw hv ha fun hdiv hv0 => hz ⟨hdiv, hv0⟩]; exact ⟨_, _, _, _, rfl⟩

theorem compareAcc_changes : ChangesAluButOut t (stateLeft compareAcc t) := by
  unfold stateLeft
  rcases operand_acc_cases w t with hv | ⟨v, hv, ha⟩ | ⟨v, a, hv, ha⟩
  · rw [compareAcc_noArg hw hv]; exact ⟨_, _, _, rfl, rfl⟩
  · rw [compareAcc_noAcc hw hv ha]; exact ⟨_, _, _, rfl, rfl⟩
  · rw [compareAcc_run hw hv ha]; exact ⟨_, _, _, rfl, rfl⟩

end FramesOfExecuteSteps

theorem RunsAs.accumulate_frame {mk : Mode → Int → Instr} {op : AluOp} (h : RunsAs mk (accumulate op))
    (hop : op ≠ .cmp) {m : Mode} {n : Int} {s t : State} (hnext : exec (mk m n) s = .next t) :
    Statements.sameCells s t ∧ Statements.sameStreams s t := by
  obtain ⟨hn, hexec⟩ := h m n
  obtain ⟨_, _, _, _, _, _, _, hrest, ⟨_, _, _, _, rfl⟩, rfl⟩ :=
    runOperand_runTo hn (fun _ => ⟨_, _, _, _, rfl⟩) (accumulate_changes · hop) (hexec s ▸ hnext)
  exact ⟨fun _ => rfl, rfl, rfl, hrest⟩

/-- Settles O26: one frame for the five accumulating instructions. -/
theorem arithmeticFrame : Obligations.ArithmeticFrame := by
  rintro m n s t (h | h | h | h | h)
  · exact runsAs_add.accumulate_frame nofun h
  · exact runsAs_sub.accumulate_frame nofun h
  · exact runsAs_mul.accumulate_frame nofun h
  · exact runsAs_div.accumulate_frame nofun h
  · exact runsAs_mod.accumulate_frame nofun h

/-- Settles O27: CMP has no accumulator latch and its compute leaves ALU.out alone (spec/42_arithmetic.md R155). -/
theorem cmpFrame : Obligations.CmpFrame := by
  intro m n s t h
  obtain ⟨hn, hexec⟩ := runsAs_cmp m n
  obtain ⟨_, _, _, _, _, _, _, hrest, ⟨_, _, _, rfl, hout⟩, rfl⟩ :=
    runOperand_runTo hn (fun _ => ⟨_, _, _, rfl, rfl⟩) compareAcc_changes (hexec s ▸ h)
  exact ⟨fun _ => rfl, ⟨rfl, rfl, hrest⟩, rfl, hout⟩

end Sys2Proof.Machine
end

section
/-! PROOFS of the family Load and store: what LD does (O18), how deep ST writes (O25), and what LD and ST leave
unchanged (O28, O29). LD and ST under one mode and argument have the same operand value: ST takes it as its address, LD
loads it. So O25 is proved for every mode from that address, and only the address is worked out mode by mode. -/

namespace Sys2Proof.Machine

/-! ### LD -/

theorem runsAs_ld : RunsAs .ld loadAcc := fun _ _ => ⟨rfl, fun _ => rfl⟩

section Ld
variable {m : Mode} {n : Int} {s : State} {o : OperandRead} (ho : operandRead (encode (.ld m n)) m n s = some o)
include ho

theorem exec_ld_loads {v : Int} (hv : o.word.arg = some v) :
    exec (.ld m n) s =
      .next (State.completed { afterPhases (.ld m n) m o s with acc := some v, pc := s.pc + 1 }) := by
  have hrun := loadAcc_run (afterPhases_memOut (.ld m n) m o s)
  rw [hv] at hrun
  exact runsAs_ld.exec_completes ho hrun

theorem exec_ld_noArg (hv : o.word.arg = none) :
    exec (.ld m n) s = .next ((afterPhases (.ld m n) m o s).endRun (.fault (.argumentAbsent o.word))) := by
  have hrun := loadAcc_run (afterPhases_memOut (.ld m n) m o s)
  rw [hv] at hrun
  exact runsAs_ld.exec_ends ho hrun

end Ld

/-- Each clause is one way in which phases 2 and 3 end the run, whatever the operand instruction. -/
theorem exec_readsFailFirst {i : Instr} {m : Mode} {n : Int} (hi : Statements.operandOf i = some (m, n)) (s : State) :
    Statements.readsFailFirst i m n s := by
  obtain ⟨hn, body, -, hexec⟩ := exec_eq_runOperand hi
  have hends {c : Terminal} {t : State} (hend : PhaseEnd i n s m c t) : exec i s = .next (t.endRun c) :=
    (hexec s).trans (runOperand_phaseEnd body hn hend)
  refine ⟨?firstRead, ?pointerArg, ?secondRead⟩
  case firstRead =>
    intro c hm hc
    cases m with
    | imm => exact absurd rfl hm
    | dir => exact hends (.dirRead c hc)
    | ind => exact hends (.indRead c hc)
  case pointerArg =>
    rintro w rest rfl hd hw
    exact hends (.indArg w rest hd hw)
  case secondRead =>
    rintro w rest q c rfl hd hw hc
    exact hends (.indSecond w rest q c hd hw hc)

/-- Settles O18, by whether the operand word has an argument, and where the operand is not read by the ways phases 2 and
3 end the run. -/
theorem ldExecutes : Obligations.LdExecutes :=
  ⟨fun _ _ _ _ ho => ⟨fun _ => exec_ld_loads ho, exec_ld_noArg ho⟩, fun _ _ => exec_readsFailFirst rfl⟩

/-! ### The depth of a store (spec/43_load_store.md R172) -/

/-- The operand value depends on the argument of the instruction's word, not on its opcode. -/
theorem operandValue_congr {w w' : Word} (h : w.arg = w'.arg) {m : Mode} {n v : Int} {s : State} :
    (∃ o, operandRead w m n s = some o ∧ o.word.arg = some v) ↔
      ∃ o, operandRead w' m n s = some o ∧ o.word.arg = some v := by
  cases m with
  | imm => simp [operandRead, h]
  | dir => exact Iff.rfl
  | ind => exact Iff.rfl

/-- LD loads the address at which ST writes. -/
theorem exec_ld_of_storeAddress {m : Mode} {n v : Int} {s : State} (haddr : storeAddress m n s = some v) :
    ∃ t, exec (.ld m n) s = .next t ∧ t.acc = some v := by
  have harg : (encode (.st m n)).arg = (encode (.ld m n)).arg := rfl
  obtain ⟨o, ho, hv⟩ := (operandValue_congr harg).mp (storeAddress_eq_some.mp haddr)
  exact ⟨_, exec_ld_loads ho hv, rfl⟩

/-- What ST does to every cell where its address is a general-purpose one. -/
theorem exec_st_of_storeAddress {m : Mode} {n v a : Int} {s : State} (haddr : storeAddress m n s = some v)
    (hcell : Statements.generalPurpose v) (ha : s.acc = some a) :
    ∃ t, exec (.st m n) s = .next t ∧
      ∀ b : Nat, t.mem.read b = if b = v.toNat then Word.data a else s.mem.read b := by
  obtain ⟨o, hst⟩ := exec_st_cell haddr hcell ha
  exact ⟨_, hst, fun b => Memory.read_write ..⟩

theorem storeAddress_imm (n : Int) (s : State) : storeAddress .imm n s = some n :=
  storeAddress_eq_some.mpr ⟨_, rfl, rfl⟩

theorem storeAddress_dir {n p : Int} {s : State} (hn : Statements.generalPurpose n)
    (hp : (s.mem.read n.toNat).arg = some p) : storeAddress .dir n s = some p := by
  refine storeAddress_eq_some.mpr ⟨⟨n, s.mem.read n.toNat, s.input⟩, ?_, hp⟩
  simp only [operandRead, delivered_cell hn.1 hn.2, Option.map_some]

theorem storeAddress_ind {n p q : Int} {s : State} (hn : Statements.generalPurpose n)
    (hp : (s.mem.read n.toNat).arg = some p) (hpcell : Statements.generalPurpose p)
    (hq : (s.mem.read p.toNat).arg = some q) : storeAddress .ind n s = some q := by
  refine storeAddress_eq_some.mpr ⟨⟨p, s.mem.read p.toNat, s.input⟩, ?_, hq⟩
  simp only [operandRead, delivered_cell hn.1 hn.2, Option.bind_some, hp, delivered_cell hpcell.1 hpcell.2,
    Option.map_some]

/-- Settles O25: in each mode the chain ends at the address of the store. -/
theorem storeIsOneLevelDeeper : Obligations.StoreIsOneLevelDeeper := by
  intro s n a ha
  refine ⟨?imm, ?dir, ?ind⟩
  case imm =>
    intro hn
    have haddr := storeAddress_imm n s
    exact ⟨exec_st_of_storeAddress haddr hn ha, exec_ld_of_storeAddress haddr⟩
  case dir =>
    intro p hn hp hpcell
    have haddr := storeAddress_dir hn hp
    exact ⟨exec_st_of_storeAddress haddr hpcell ha, exec_ld_of_storeAddress haddr⟩
  case ind =>
    intro p q hn hp hpcell hq hqcell
    have haddr := storeAddress_ind hn hp hpcell hq
    exact ⟨exec_st_of_storeAddress haddr hqcell ha, exec_ld_of_storeAddress haddr⟩

/-! ### The frame of LD -/

/-- Only ACC, PC and TICKS differ. -/
def ChangesAcc (s t : State) : Prop :=
  ∃ acc pc ticks, t = { s with acc := acc, pc := pc, ticks := ticks }

theorem loadAcc_changes {t : State} {w : Word} (hw : t.memOut = some w) : ChangesAcc t (stateLeft loadAcc t) := by
  rw [stateLeft, loadAcc_run hw]
  cases w.arg with
  | none => exact ⟨_, _, _, rfl⟩
  | some v => exact ⟨_, _, _, rfl⟩

/-- Settles O28: LD does not drive the ALU, and phases 2 and 3 only read (spec/43_load_store.md R170). -/
theorem ldFrame : Obligations.LdFrame := by
  intro m n s t h
  obtain ⟨hn, hexec⟩ := runsAs_ld m n
  obtain ⟨_, _, _, _, _, _, _, hrest, ⟨_, _, _, rfl⟩, rfl⟩ :=
    runOperand_runTo hn (fun _ => ⟨_, _, _, rfl⟩) loadAcc_changes (hexec s ▸ h)
  exact ⟨fun _ => rfl, ⟨rfl, rfl, hrest⟩, rfl⟩

/-! ### The frame of ST -/

/-- All that an ST can do to the streams: it may consume input, and at the output port it may append ACC's value. -/
theorem exec_st_streams {m : Mode} {n : Int} {s t : State} (h : exec (.st m n) s = .next t) :
    Statements.sameStreams s t ∨ ∃ a, storeAddress m n s = some (Config.outputPort : Int) ∧
      Statements.sameStreams (written s Config.outputPort a) t := by
  rcases operandPhases_cases (.st m n) m n s rfl with ⟨o, ho, -⟩ | ⟨c, u, hend, -⟩
  · have hinput := operandRead_suffix ho
    rcases operand_acc_cases o.word s with hv | ⟨b, hv, ha⟩ | ⟨b, a, hv, ha⟩
    · rw [exec_st_noArg ho hv] at h; cases h; exact .inl ⟨rfl, rfl, hinput⟩
    · rw [exec_st_noAcc ho hv ha] at h; cases h; exact .inl ⟨rfl, rfl, hinput⟩
    · cases hw : writeEnd b a with
      | some c => rw [exec_st_writeEnd ho hv ha hw] at h; cases h; exact .inl ⟨rfl, rfl, hinput⟩
      | none =>
        rw [exec_st_writes ho hv ha hw] at h
        cases h
        by_cases hport : b = Config.outputPort
        · subst hport
          exact .inr ⟨a, storeAddress_eq_some.mpr ⟨o, ho, hv⟩, rfl, rfl, hinput⟩
        · exact .inl ⟨if_neg hport, rfl, hinput⟩
  · rw [exec_st, runOperand_phaseEnd storeAcc rfl hend] at h
    cases h
    obtain ⟨_, _, _, _, hrest, rfl⟩ := phaseEnd_reads hend
    exact .inl ⟨rfl, rfl, hrest⟩

theorem exec_st_cells {m : Mode} {n : Int} {s t : State} (h : exec (.st m n) s = .next t) {b : Nat}
    (hb : storeAddress m n s ≠ some (b : Int)) : t.mem.read b = s.mem.read b := by
  rcases exec_st_mem h with hmem | ⟨v, a, haddr, hcell, -, hmem⟩
  · rw [hmem]
  · have hne : b ≠ v.toNat := by
      rintro rfl
      exact hb (haddr.trans (congrArg some (Int.toNat_of_nonneg hcell.1).symm))
    rw [hmem, Memory.read_write, if_neg hne]

/-- Settles O29: ST has no accumulator latch, stores at its address only, and appends at the output port only. -/
theorem stFrame : Obligations.StFrame := by
  intro m n s t h
  refine ⟨exec_keeps_acc rfl h, ?_⟩
  rcases exec_st_streams h with ⟨hout, hcycles, hinput⟩ | ⟨a, haddr, hout, hcycles, hinput⟩
  · exact ⟨hcycles, hinput, fun _ => exec_st_cells h, fun _ => hout, .inl hout⟩
  · rw [written_outputPort] at hout
    exact ⟨hcycles, hinput, fun _ => exec_st_cells h, fun hport => absurd haddr hport, .inr ⟨_, hout⟩⟩

end Sys2Proof.Machine
end

section
/-! PROOFS of the family Control: what JMP, JZ, HLT and VAR do (O20, O21, O22, O23) and what they leave unchanged (O30).
JMP and JZ are operand instructions, whose reads fail as LD's do; HLT and VAR have no addressing mode, and their execute
step ends the run at once. For the frame all four are one: from phases 2 and 3 on, only PC and TICKS change (`RunTo`). -/

namespace Sys2Proof.Machine

/-! ### JMP and JZ -/

theorem runsAs_jmp : RunsAs .jmp jump := fun _ _ => ⟨rfl, fun _ => rfl⟩
theorem runsAs_jz : RunsAs .jz branchZero := fun _ _ => ⟨rfl, fun _ => rfl⟩

/-- Settles O20, by whether the operand word has an argument: the target is not checked (spec/44_control.md R180). -/
theorem jmpExecutes : Obligations.JmpExecutes := by
  refine ⟨fun m n s o ho => ?_, fun m n => exec_readsFailFirst rfl⟩
  have hrun := jump_run (afterPhases_memOut (.jmp m n) m o s)
  refine ⟨fun v hv => ?jumps, fun hv => ?noArg⟩
  case jumps =>
    rw [hv] at hrun
    exact runsAs_jmp.exec_completes ho hrun
  case noArg =>
    rw [hv] at hrun
    exact runsAs_jmp.exec_ends ho hrun

/-- Settles O21, by the zero flag, which phases 2 and 3 leave alone, and on the taken path by whether the operand word has
an argument (spec/44_control.md R181). -/
theorem jzExecutes : Obligations.JzExecutes := by
  refine ⟨fun m n s o ho => ?_, fun m n => exec_readsFailFirst rfl⟩
  have hrun := branchZero_run (afterPhases_memOut (.jz m n) m o s)
  rw [afterPhases_alu] at hrun
  refine ⟨fun v hz hv => ?taken, fun hz hv => ?takenNoArg, fun hz => ?untaken, fun hz => ?unwritten⟩
  case taken =>
    rw [hz, hv] at hrun
    exact runsAs_jz.exec_completes ho hrun
  case takenNoArg =>
    rw [hz, hv] at hrun
    exact runsAs_jz.exec_ends ho hrun
  case untaken =>
    rw [hz] at hrun
    exact runsAs_jz.exec_completes ho hrun
  case unwritten =>
    rw [hz] at hrun
    exact runsAs_jz.exec_ends ho hrun

/-! ### HLT and VAR -/

/-- HLT at a general-purpose PC, for either value of OPERAND_FETCH_ON_NONE (spec/44_control.md R182). -/
theorem exec_hlt_cell {arg : Option Int} {s : State} (hpc : Statements.generalPurpose s.pc) :
    exec (.hlt arg) s = .next ((afterNone (.hlt arg) s).endRun .halted) := by
  show runNone (.hlt arg) (stop .halted) s = _
  rw [runNone, EStateM.run_bind, nonePhases_run hpc.1 hpc.2]
  rfl

/-- Settles O22: phases 2 and 3 complete, and the execute step is the end of the run. -/
theorem hltEndsRun : Obligations.HltEndsRun := fun _ _ => exec_hlt_cell

/-- Settles O23: phases 2 and 3 keep PC, so the fault names the address of the VAR word. -/
theorem varEndsRunWithFault : Obligations.VarEndsRunWithFault := fun _ _ => exec_var_cell

/-! ### The frame of the four -/

/-- Only PC and TICKS differ. -/
def ChangesPC (s t : State) : Prop := ∃ pc ticks, t = { s with pc := pc, ticks := ticks }

theorem ChangesPC.refl (s : State) : ChangesPC s s := ⟨_, _, rfl⟩

section FramesOfExecuteSteps
variable {t : State} {w : Word} (hw : t.memOut = some w)
include hw

theorem jump_changes : ChangesPC t (stateLeft jump t) := by
  rw [stateLeft, jump_run hw]
  cases w.arg with
  | none => exact .refl t
  | some v => exact ⟨_, _, rfl⟩

theorem branchZero_changes : ChangesPC t (stateLeft branchZero t) := by
  rw [stateLeft, branchZero_run hw]
  match t.alu.zero, w.arg with
  | none, _ => exact .refl t
  | some false, _ => exact ⟨_, _, rfl⟩
  | some true, none => exact .refl t
  | some true, some v => exact ⟨_, _, rfl⟩

end FramesOfExecuteSteps

/-- Both ends of a word without an addressing mode, at any PC: its execute step changes nothing, and phases 2 and 3 read
at most once, at PC (spec/41_sequencer.md R131). -/
theorem runNone_runTo {R : State → State → Prop} {i : Instr} {body : Signal Unit} {c : State → Terminal} {s t : State}
    (hrefl : ∀ u, R u u) (hbody : ∀ u, body.run u = .error (.ends (c u)) u) (h : runNone i body s = .next t) :
    RunTo R i s t := by
  rw [runNone, EStateM.run_bind] at h
  rcases nonePhases_cases i s with ⟨w, rest, k, hrest, -, hrun⟩ | ⟨d, -, hrun⟩
  · have hsuffix : rest <:+ s.input := by
      rcases hrest with rfl | ⟨x, hx⟩
      · exact List.suffix_rfl
      · exact hx ▸ List.suffix_cons x rest
    simp only [hrun, hbody] at h
    cases h
    exact .intro _ _ _ _ _ _ _ hsuffix (hrefl _) rfl
  · simp only [hrun] at h
    cases h
    exact .intro _ _ _ _ _ _ _ List.suffix_rfl (hrefl _) rfl

/-- HLT and VAR change only what phases 2 and 3 write, and STATUS. -/
theorem exec_none_runTo {i : Instr} {s t : State} (hi : Statements.operandOf i = none) (h : exec i s = .next t) :
    RunTo ChangesPC i s t := by
  obtain ⟨body, c, hbody, hexec⟩ := exec_eq_runNone hi
  exact runNone_runTo .refl hbody (hexec s ▸ h)

theorem exec_control_runTo {i : Instr} {s t : State}
    (hi : (∃ m n, i = .jmp m n) ∨ (∃ m n, i = .jz m n) ∨ (∃ arg, i = .hlt arg) ∨ (∃ v, i = .var v))
    (h : exec i s = .next t) : RunTo ChangesPC i s t := by
  rcases hi with ⟨m, n, rfl⟩ | ⟨m, n, rfl⟩ | ⟨arg, rfl⟩ | ⟨v, rfl⟩
  · exact runOperand_runTo rfl .refl jump_changes h
  · exact runOperand_runTo rfl .refl branchZero_changes h
  · exact exec_none_runTo rfl h
  · exact exec_none_runTo rfl h

/-- Settles O30: no phase of the four writes ACC, the ALU, a cell, the output or CYCLES, and IN is only read. -/
theorem controlFrame : Obligations.ControlFrame := by
  intro i s t hi h
  obtain ⟨_, _, _, _, _, _, _, hrest, ⟨_, _, rfl⟩, rfl⟩ := exec_control_runTo hi h
  exact ⟨fun _ => rfl, ⟨rfl, rfl, hrest⟩, rfl, rfl⟩

end Sys2Proof.Machine
end

section
/-! PROOFS of the family Exceptions: what ends a run (O24, O32, O33), and that every run ends (O49). A cycle that does not
end the run is counted in INSTRS, and the invariant ties INSTRS to CYCLES while the run goes on; so every iteration of the
driver's loop that ends nothing brings CYCLES one nearer to the cap. -/

namespace Sys2Proof.Machine

/-! ### Single steps -/

/-- Settles O24: the reads of phases 2 and 3 are the same for the ten operand instructions. -/
theorem operandReadsFailFirst : Obligations.OperandReadsFailFirst := fun _ _ _ s hi => exec_readsFailFirst hi s

/-- Settles O32. -/
theorem terminatedIsAbsorbing : Obligations.TerminatedIsAbsorbing := by
  intro s hended
  cases hstatus : s.status with
  | running => exact absurd hstatus hended
  | ended c => exact step_of_ended hstatus

/-- Settles O33: the cap's branch of the driver's loop changes STATUS only. -/
theorem capStopsBeforeCycle : Obligations.CapStopsBeforeCycle := fun _ => step_of_cap

/-- A step into a running state was a cycle: an ended state stays, and the cap ends the run. -/
theorem runsCycle_of_step {s t : State} (h : step s = .next t) (hrun : t.status = .running) : Statements.runsCycle s := by
  cases hstatus : s.status with
  | ended c =>
    cases h.symm.trans (step_of_ended hstatus)
    cases hstatus.symm.trans hrun
  | running =>
    refine ⟨hstatus, fun hcap => ?_⟩
    cases h.symm.trans (step_of_cap hstatus hcap)
    cases hrun

/-- Between steps with the invariant, a step that does not end the run is one more cycle begun (spec/41_sequencer.md
R134). -/
theorem step_cycles {s t : State} (hinv : s.Inv) (h : step s = .next t) (hrun : t.status = .running) :
    t.cycles = s.cycles + 1 := by
  have hcycle := runsCycle_of_step h hrun
  have hbefore : s.cycles = s.instrs := by
    simpa only [State.countersAgree, hcycle.1] using hinv.counters
  have hafter : t.cycles = t.instrs := by
    simpa only [State.countersAgree, hrun] using (stepKeepsInvariant s t hinv h).counters
  have hcounted : t.instrs = s.instrs + 1 := (instrsCountsCompletedCycles s t hcycle h).trans (if_pos hrun)
  omega

/-! ### Runs (spec/60_exceptions.md R222, spec/70_reset_and_hazards.md R243) -/

theorem run_succ_of_step {k : Nat} {s t : State} (h : step s = .next t) : core.run (k + 1) s = core.run k t := by
  have hcore : core.step s = .next t := h
  simp only [Host.Core.run, hcore]

/-- A terminated state is where every further run of the loop stays (spec/60_exceptions.md R224). -/
theorem run_of_ended {s : State} (hended : s.status ≠ .running) (k : Nat) : core.run k s = .next s := by
  induction k with
  | zero => rfl
  | succ k ih => rw [run_succ_of_step (terminatedIsAbsorbing s hended), ih]

/-- The run ends within one iteration more than there are cycles left to begin. -/
theorem run_ends (k : Nat) {s : State} (hinv : s.Inv) (hk : Config.iterationCap < s.cycles + k) :
    ∃ t, core.run k s = .next t ∧ t.status ≠ .running := by
  induction k generalizing s with
  | zero => exact absurd hk hinv.withinCap.not_gt
  | succ k ih =>
    obtain ⟨t, hstep⟩ := stepNeverStopsOutsideStatus s hinv
    rw [run_succ_of_step hstep]
    by_cases hrun : t.status = .running
    case neg => exact ⟨t, run_of_ended hrun k, hrun⟩
    case pos =>
      have hnearer := step_cycles hinv hstep hrun
      exact ih (stepKeepsInvariant s t hinv hstep) (by omega)

/-- Settles O49: a run has at most ITERATION_CAP cycles left to begin. -/
theorem everyRunEnds : Obligations.EveryRunEnds := fun s hinv =>
  run_ends (1000000 + 1) hinv (Nat.lt_add_left s.cycles (Nat.lt_succ_self Config.iterationCap))

end Sys2Proof.Machine
end

section
/-! PROOFS of the family Reset and hazards: what the host's load gives a run (O4), and how a run ends where PC leaves its
program (O34). An image is placed from any address on, so the induction over its words needs no more than
`Memory.read_below`. For O34 the one new fact is that a word without an addressing mode, fetched at the input port, is
read a second time there where OPERAND_FETCH_ON_NONE is true (spec/41_sequencer.md R131). -/

namespace Sys2Proof.Machine

/-! ### The host's load -/

/-- The words placed from `a` on read back as the image, with the default word past its end. -/
theorem Memory.read_placeFrom {ws : List Word} {a : Nat} (h : a + ws.length ≤ Config.inputPort) (i : Nat) :
    (Memory.placeFrom a ws).read (a + i) = ws[i]?.getD (Word.data 0) := by
  induction ws generalizing a i with
  | nil => rfl
  | cons w rest ih =>
    have hrest : a + 1 + rest.length ≤ Config.inputPort := by rw [List.length_cons] at h; omega
    simp only [Memory.placeFrom]
    cases i with
    | zero =>
      split
      case isTrue hw => rw [hw]; exact Memory.read_below (Memory.wfFrom_placeFrom rest (a + 1) hrest) (Nat.lt_succ_self a)
      case isFalse => exact if_pos rfl
    | succ i =>
      have hnext : (Memory.placeFrom (a + 1) rest).read (a + (i + 1)) = rest[i]?.getD (Word.data 0) := by
        rw [← ih hrest i, Nat.add_right_comm, Nat.add_assoc]
      split
      case isTrue => exact hnext
      case isFalse => exact (Memory.read_tail w _ (by omega)).trans hnext

/-- The converse of `firstIllFormed_eq_none`. -/
theorem firstIllFormed_of_wf {image : List Word} (h : ∀ w ∈ image, w.wf = true) : firstIllFormed image = none := by
  induction image with
  | nil => rfl
  | cons w rest ih =>
    obtain ⟨hw, hrest⟩ := List.forall_mem_cons.mp h
    obtain ⟨i, hdec⟩ := exists_decode_of_wf hw
    simp only [firstIllFormed, hdec, ih hrest]

/-- The model's check of an image is the one spec/30_encoding.md R86 states. -/
theorem imageWf_iff (image : List Word) :
    imageWf image = true ↔ (∀ w ∈ image, Statements.checksHold w) ∧ image.length ≤ Config.inputPort := by
  simp only [imageWf, checksHold_iff_wf, Bool.and_eq_true, List.all_eq_true, decide_eq_true_eq]

theorem load_of_imageWf {image : List Word} (h : imageWf image = true) (startPC : Int) (input : List Nat) :
    State.load image startPC input =
      .next { State.reset with mem := Memory.placeFrom 0 image, pc := startPC, input := input } := by
  obtain ⟨hchecks, hlen⟩ := (imageWf_iff image).mp h
  have hnone := firstIllFormed_of_wf fun w hw => (checksHold_iff_wf w).mp (hchecks w hw)
  simp only [State.load, if_neg hlen.not_gt, hnone]

/-- The load answers a refusal or a state, and a state only for a well-formed image. -/
theorem load_refused_of_not_imageWf {image : List Word} (h : ¬imageWf image = true) (startPC : Int) (input : List Nat) :
    ∃ r, State.load image startPC input = .refused r := by
  unfold State.load
  split
  case isTrue => exact ⟨_, rfl⟩
  case isFalse hlen =>
    cases hfirst : firstIllFormed image with
    | some e => exact ⟨_, rfl⟩
    | none =>
      have hchecks : ∀ w ∈ image, Statements.checksHold w := fun w hw =>
        (checksHold_iff_wf w).mpr (firstIllFormed_eq_none hfirst w hw)
      exact absurd ((imageWf_iff image).mpr ⟨hchecks, Nat.le_of_not_gt hlen⟩) h

/-- Settles O4, by the model's check of the image. -/
theorem loadPlacesImage : Obligations.LoadPlacesImage := by
  intro image startPC input
  rw [← imageWf_iff]
  refine ⟨fun hwf => ?placed, fun hwf => load_refused_of_not_imageWf hwf startPC input⟩
  have hread (i : Nat) : (Memory.placeFrom 0 image).read i = image[i]?.getD (Word.data 0) := by
    obtain ⟨-, hlen⟩ := (imageWf_iff image).mp hwf
    simpa only [Nat.zero_add] using Memory.read_placeFrom (a := 0) (by omega) i
  refine ⟨_, load_of_imageWf hwf startPC input, fun i hi => ?word, fun i hi => ?default⟩
  case word => rw [hread, List.getElem?_eq_getElem hi, Option.getD_some]
  case default => rw [hread, List.getElem?_eq_none hi, Option.getD_none]

/-! ### A cycle by what its fetch does -/

/-- `step_of_decode` for every PC that delivers, the input port included. -/
theorem step_of_delivered {s : State} {w : Word} {rest : List Nat} {i : Instr} (hcycle : Statements.runsCycle s)
    (hd : delivered s.pc s.mem s.input = some (w, rest)) (hdec : decode w = .ok i) :
    step s = exec i { fetched w s with input := rest } := by
  obtain ⟨hrun, hcap⟩ := hcycle
  rw [step_of_cycle hrun hcap, instructionCycle, fetch_delivers (s := { s with cycles := s.cycles + 1 }) hd]
  simp only [hdec]
  rfl

/-- A fetch that fails ends the run with nothing but AR written (spec/60_exceptions.md R212). -/
theorem step_of_readEnd {s : State} {c : Terminal} (hcycle : Statements.runsCycle s)
    (hend : readEnd s.pc s.input = some c) :
    step s = .next (State.endRun { s with cycles := s.cycles + 1, ar := some s.pc } c) := by
  obtain ⟨hrun, hcap⟩ := hcycle
  rw [step_of_cycle hrun hcap, instructionCycle, fetch_ends (s := { s with cycles := s.cycles + 1 }) hend]
  rfl

theorem step_status_of_readEnd {s : State} {c : Terminal} (hcycle : Statements.runsCycle s)
    (hend : readEnd s.pc s.input = some c) : ∃ t, step s = .next t ∧ t.status = .ended c :=
  ⟨_, step_of_readEnd hcycle hend, rfl⟩

/-- A character fetched as an instruction is a VAR word (spec/20_memory.md R54). -/
theorem step_inputPort {s : State} {c : Nat} {rest : List Nat} (hcycle : Statements.runsCycle s)
    (hport : s.pc = Config.inputPort) (hinput : s.input = c :: rest) :
    step s = exec (.var c) { fetched (Word.data c) s with input := rest } :=
  step_of_delivered hcycle (hinput ▸ delivered_input hport) rfl

/-! ### VAR at any PC (spec/41_sequencer.md R131, spec/44_control.md R183) -/

/-- Where phase 3 does not read, VAR ends the run with the input as the fetch left it. -/
theorem exec_var_noReread (hoption : Config.operandFetchOnNone = false) (v : Int) (s : State) :
    exec (.var v) s =
      .next ((endedInPhases (.var v) s.pc (Word.data v) s.input 0 s).endRun (.fault (.varExecuted s.pc v))) := by
  show runNone (.var v) (dataExecuted v) s = _
  simp only [runNone, nonePhases, operandFetchNone, hoption]
  rfl

/-- Where phase 3 reads again at PC and the read delivers, what it took from the input is gone. -/
theorem exec_var_rereads (hoption : Config.operandFetchOnNone = true) (v : Int) {s : State} {w : Word} {rest : List Nat}
    (hd : delivered s.pc s.mem s.input = some (w, rest)) :
    exec (.var v) s = .next ((endedInPhases (.var v) s.pc w rest 1 s).endRun (.fault (.varExecuted s.pc v))) := by
  show runNone (.var v) (dataExecuted v) s = _
  simp only [runNone, nonePhases, operandFetchNone, hoption, if_true, EStateM.run_bind, present_run]
  simp only [memRead_at hd]
  rfl

/-- Where phase 3 reads again at PC and the read fails, the run ends before the execute step. -/
theorem exec_var_rereadEnds (hoption : Config.operandFetchOnNone = true) (v : Int) {s : State} {c : Terminal}
    (hend : readEnd s.pc s.input = some c) :
    exec (.var v) s = .next ((endedInPhases (.var v) s.pc (Word.data v) s.input 0 s).endRun c) := by
  show runNone (.var v) (dataExecuted v) s = _
  simp only [runNone, nonePhases, operandFetchNone, hoption, if_true, EStateM.run_bind, present_run]
  simp only [memRead_ends_at hend]
  rfl

/-! ### Running off the end -/

/-- Two characters: one is fetched, and the second is taken only by the read of phase 3. -/
theorem step_inputPort_two {s : State} {c d : Nat} {rest : List Nat} (hcycle : Statements.runsCycle s)
    (hport : s.pc = Config.inputPort) (hinput : s.input = c :: d :: rest) :
    ∃ t, step s = .next t ∧ t.status = .ended (.fault (.varExecuted s.pc c)) ∧
      t.input = if Config.operandFetchOnNone then rest else d :: rest := by
  rw [step_inputPort hcycle hport hinput]
  cases hoption : Config.operandFetchOnNone with
  | false => exact ⟨_, exec_var_noReread hoption _ _, rfl, rfl⟩
  | true => exact ⟨_, exec_var_rereads hoption _ (delivered_input hport), rfl, rfl⟩

/-- One character: it is fetched, and the read of phase 3 finds the input exhausted. -/
theorem step_inputPort_one {s : State} {c : Nat} (hcycle : Statements.runsCycle s)
    (hport : s.pc = Config.inputPort) (hinput : s.input = [c]) :
    ∃ t, step s = .next t ∧ t.input = [] ∧
      t.status = if Config.operandFetchOnNone then .ended .inputExhausted
        else .ended (.fault (.varExecuted s.pc c)) := by
  rw [step_inputPort hcycle hport hinput]
  cases hoption : Config.operandFetchOnNone with
  | false => exact ⟨_, exec_var_noReread hoption _ _, rfl, rfl⟩
  | true => exact ⟨_, exec_var_rereadEnds hoption _ (readEnd_exhausted hport), rfl, rfl⟩

/-- Settles O34, by the regions of spec/20_memory.md R51 that PC can be in, and at the input port by the characters left. -/
theorem runningOffTheEnd : Obligations.RunningOffTheEnd := by
  intro s hcycle
  refine ⟨?cell, ?twoChars, ?oneChar, ?noChar, ?outputPort, ?outside⟩
  case cell =>
    intro hpc hcell
    obtain ⟨t, hstep, hstatus, -⟩ := step_data_cell hcycle hpc hcell
    exact ⟨t, hstep, hstatus⟩
  case twoChars =>
    intro c d rest hport hinput
    exact hport ▸ step_inputPort_two hcycle hport hinput
  case oneChar =>
    intro c hport hinput
    exact hport ▸ step_inputPort_one hcycle hport hinput
  case noChar =>
    intro hport hinput
    exact step_status_of_readEnd hcycle (hinput ▸ readEnd_exhausted hport)
  case outputPort =>
    intro hport
    exact hport ▸ step_status_of_readEnd hcycle (readEnd_outputPort hport)
  case outside =>
    intro hout
    exact step_status_of_readEnd hcycle (readEnd_outside hout)

end Sys2Proof.Machine
end
